-- ==== Sys2Proof/Word.lean ====
section
/-! DEFINITION. The words of the block (spec 00_scope R8, 30_encoding R45, R46, R52): nothing but names for
bit vectors of the widths the spec states. -/

namespace Sys2Proof

/-- An 8-bit unsigned magnitude sample (R11), an `idx` field or a `data` field (R46). -/
abbrev Byte := BitVec 8

/-- A command word: 20 bits, one format (R46, R58). -/
abbrev Cmd := BitVec 20

/-- Response data: 32 bits, unsigned (R52). -/
abbrev Data32 := BitVec 32

/-- The container of one history word (R14). The architectural word is its low WD bits (R6: WD is at most 32);
the bits above them are 0 in every well-formed state. -/
abbrev HistWord := BitVec 32

end Sys2Proof
end

