-- ==== Sys2Proof/Config.lean ====
section
/-! DEFINITION. The configuration record of an instance (spec 00_scope R4 to R7) and the free values: the
parameters the spec leaves open, each an opaque constant that nothing can evaluate. -/

namespace Sys2Proof

/-- The configuration surface of R4. The decay step FLOATING_DECAY_STEP is held as R6 and R7 hold it:
`stepQ / 2 ^ fracBits` (STEPQ and FB). BANDWIDTH and WATERFALL_FLOOR are both 88 in this hardware and are
two parameters (R4). -/
structure Params where
  /-- BW: how many channels. -/
  bandwidth : Nat
  /-- DW: how many display columns. -/
  displayWidth : Nat
  /-- SH: the largest height. -/
  spectrumHeight : Nat
  /-- HB: the calibration constant of the height function. -/
  heightBasis : Nat
  /-- WF: the threshold. -/
  waterfallFloor : Nat
  /-- WD: how many history bits a column keeps. -/
  waterfallDepth : Nat
  /-- FB: fraction bits of the floating level. -/
  fracBits : Nat
  /-- STEPQ: the decay step in units of `2 ^ (-FB)`. -/
  stepQ : Nat
deriving DecidableEq, Repr

/-- The legal ranges of R6. -/
def Params.legal (p : Params) : Bool :=
  decide (1 ≤ p.bandwidth ∧ p.bandwidth ≤ 256) &&
  decide (1 ≤ p.displayWidth ∧ p.displayWidth ≤ 256) &&
  decide (1 ≤ p.spectrumHeight ∧ p.spectrumHeight ≤ 127) &&
  decide (p.heightBasis ≤ 255) &&
  decide (p.waterfallFloor ≤ 256) &&
  decide (1 ≤ p.waterfallDepth ∧ p.waterfallDepth ≤ 32) &&
  decide (p.fracBits ≤ 8) &&
  decide (1 ≤ p.stepQ) &&
  decide (p.spectrumHeight * 2 ^ p.fracBits ≤ 65535)

/-- A configuration of an instance of this hardware: parameters with the proof that they are legal.
R6: "A configuration outside these ranges is not an instance of this hardware and the model refuses to build it". -/
structure Cfg extends Params where
  /-- The ranges of R6 hold. -/
  isLegal : toParams.legal = true
deriving DecidableEq, Repr

/-- Building an instance (R6, R75, item U15): refused when a parameter is out of its range, and when the wanted
decay step `num / den` is not exactly `STEPQ / 2 ^ FB`. -/
def Cfg.build (p : Params) (num den : Nat) : Option Cfg :=
  if h : p.legal = true then
    if 0 < den ∧ p.stepQ * den = num * 2 ^ p.fracBits then some { toParams := p, isLegal := h } else none
  else none

/-- The parameters of the observed design (R4, R5, R7). -/
def Params.observed : Params where
  bandwidth := 88
  displayWidth := 128
  spectrumHeight := 32
  heightBasis := 95
  waterfallFloor := 88
  waterfallDepth := 32
  fracBits := 1
  stepQ := 1

/-- This hardware (R4, R18): the values 88, 128, 32, 95, 88, 32 and 0.5. -/
def Cfg.thisHardware : Cfg := { toParams := Params.observed, isLegal := by decide }

/-- FLOATING_DECAY_STEP as the real number it stands for (R4, R6). -/
def Params.decayStep (p : Params) : ℚ := (p.stepQ : ℚ) / 2 ^ p.fracBits

/-- SHQ, the largest stored floating value (R7). -/
def Params.maxLevel (p : Params) : Nat := p.spectrumHeight * 2 ^ p.fracBits

/-- PEAK_W of R7, `ceil (log2 (SH + 1))`, for SH at least 1. -/
def Params.peakWidth (p : Params) : Nat := Nat.log2 p.spectrumHeight + 1

/-- FLT_W of R7, `ceil (log2 (SHQ + 1))`, for SHQ at least 1. -/
def Params.levelWidth (p : Params) : Nat := Nat.log2 p.maxLevel + 1

/-- HIST_MASK of R7, `2 ^ WD - 1`. -/
def Params.histMask (p : Params) : HistWord := BitVec.ofNat 32 (2 ^ p.waterfallDepth - 1)

/-- CUR_RESET (R21, R111, decision D10, item U1): what channel `i` of the sample buffer holds after reset number
`epoch`. A FREE VALUE: any sample, chosen for each element and again at each reset. Assumption log 1. -/
opaque Config.curReset : Nat → Nat → Byte

/-- LATENCY(op) (R119, decision D15, item U5), less the one cycle of the soonest response the model has: a FREE VALUE,
finite. Assumption log 9. -/
opaque Config.latency : BitVec 4 → Nat

/-- What `rsp_status` shows in a cycle without a response (item U7): a FREE VALUE. Assumption log 10. -/
opaque Config.idleStatus : Nat → BitVec 2

/-- What `rsp_data` shows in a cycle without a response (item U7): a FREE VALUE. Assumption log 10. -/
opaque Config.idleData : Nat → Data32

/-- What `cmd_ready` shows while `rst` is 1: a FREE VALUE (R111 fixes it only from the first edge with `rst` 0).
Assumption log 10. -/
opaque Config.readyInReset : Nat → Bool

/-- What `rsp_valid` shows while `rst` is 1: a FREE VALUE, as `readyInReset`. Assumption log 10. -/
opaque Config.validInReset : Nat → Bool

end Sys2Proof
end

