-- ==== Sys2Proof/Syntax.lean ====
section
/-! DEFINITION. The seven commands (spec 30_encoding R48), the responses (R52, R53) and what a host can do to
the block between commands (70_reset_and_hazards R110, R121). -/

namespace Sys2Proof

/-- One constructor per row of the opcode map (R48). The operands are the `idx` and `data` fields of the word,
unsigned numbers used as they are (R47). -/
inductive Instr where
  /-- `WRS ch, val`: write a sample (R60). -/
  | wrs (ch val : Byte)
  /-- `RDS ch`: read a sample (R61). -/
  | rds (ch : Byte)
  /-- `TRK`: one frame of both trackers (R68). -/
  | trk
  /-- `RDP ch`: read a peak level (R69). -/
  | rdp (ch : Byte)
  /-- `RDF ch`: read a floating level (R70). -/
  | rdf (ch : Byte)
  /-- `WFU`: one scan of the waterfall (R82). -/
  | wfu
  /-- `RDW col`: read a history word (R83). -/
  | rdw (col : Byte)
deriving DecidableEq, Repr

/-- The status codes of R53. Code 3 is never produced, so the type has three values (item U6). -/
inductive Status where
  /-- OK: the command was accepted and has taken effect. -/
  | ok
  /-- E_BADOP: reserved opcode or non-zero reserved field; nothing changed. -/
  | eBadOp
  /-- E_BADIDX: index outside its space; nothing changed. -/
  | eBadIdx
deriving DecidableEq, Repr

/-- The response of one command (R52). -/
structure Response where
  status : Status
  data : Data32
deriving DecidableEq, Repr

/-- What the host does next (R121): it presents any of the 2^20 words, or it asserts `rst` between commands
(R110, R112). -/
inductive HostEvent where
  | command (w : Cmd)
  | reset
deriving DecidableEq, Repr

end Sys2Proof
end

