-- ==== Sys2Proof/WellFormed.lean ====
section
/-! DEFINITION. Which commands name an element that exists (spec 20_memory R30, R33, R35). -/

namespace Sys2Proof

/-- A channel index is below BW (R30). -/
def Cfg.channelOk (c : Cfg) (i : Byte) : Bool := decide (i.toNat < c.bandwidth)

/-- A column index is below DW (R30). -/
def Cfg.columnOk (c : Cfg) (x : Byte) : Bool := decide (x.toNat < c.displayWidth)

/-- The index of the command is inside its space (R33); TRK and WFU have none. -/
def Instr.wellFormed (c : Cfg) : Instr → Bool
  | .wrs ch _ => c.channelOk ch
  | .rds ch => c.channelOk ch
  | .trk => true
  | .rdp ch => c.channelOk ch
  | .rdf ch => c.channelOk ch
  | .wfu => true
  | .rdw col => c.columnOk col

end Sys2Proof
end

