-- ==== Sys2Proof/Decode.lean ====
section
/-! DEFINITION. Decoding (spec 30_encoding R46 to R51) and, after it, the encoder (R46, R48, R55). Decoding is
total on all 2^20 words. -/

namespace Sys2Proof

/-- `op = cmd[19:16]` (R46). -/
def opOf (w : Cmd) : BitVec 4 := w.extractLsb' 16 4

/-- `idx = cmd[15:8]` (R46). -/
def idxOf (w : Cmd) : Byte := w.extractLsb' 8 8

/-- `data = cmd[7:0]` (R46). -/
def dataOf (w : Cmd) : Byte := w.extractLsb' 0 8

/-- The command a word selects in the opcode map (R48), if it selects one: the opcode is not reserved (R49) and
every field the command does not use is 0 (R50). The index is not looked at here: `decode` does that. -/
def select (w : Cmd) : Option Instr :=
  match (opOf w).toNat with
  | 1 => some (.wrs (idxOf w) (dataOf w))
  | 2 => if dataOf w = 0#8 then some (.rds (idxOf w)) else none
  | 3 => if idxOf w = 0#8 ∧ dataOf w = 0#8 then some .trk else none
  | 4 => if dataOf w = 0#8 then some (.rdp (idxOf w)) else none
  | 5 => if dataOf w = 0#8 then some (.rdf (idxOf w)) else none
  | 6 => if idxOf w = 0#8 ∧ dataOf w = 0#8 then some .wfu else none
  | 7 => if dataOf w = 0#8 then some (.rdw (idxOf w)) else none
  | _ => none

/-- The two results of decoding: a command, or a refusal with its status (R51). -/
inductive Decoded where
  | accepted (i : Instr)
  | refused (st : Status)
deriving DecidableEq, Repr

/-- Decoding (R51): E_BADOP first (R49, R50), then E_BADIDX (R33), then the command. -/
def decode (c : Cfg) (w : Cmd) : Decoded :=
  match select w with
  | none => .refused .eBadOp
  | some i => if i.wellFormed c then .accepted i else .refused .eBadIdx

/-- One row of the opcode map (R48): a word `w` selects it when `w AND mask = pattern`. -/
structure OpcodeRow where
  mnemonic : String
  pattern : Cmd
  mask : Cmd
deriving DecidableEq, Repr

/-- The opcode map as R48 prints it: mnemonic, match, mask. -/
def opcodeRows : List OpcodeRow :=
  [ ⟨"WRS", 0x10000#20, 0xF0000#20⟩,
    ⟨"RDS", 0x20000#20, 0xF00FF#20⟩,
    ⟨"TRK", 0x30000#20, 0xFFFFF#20⟩,
    ⟨"RDP", 0x40000#20, 0xF00FF#20⟩,
    ⟨"RDF", 0x50000#20, 0xF00FF#20⟩,
    ⟨"WFU", 0x60000#20, 0xFFFFF#20⟩,
    ⟨"RDW", 0x70000#20, 0xF00FF#20⟩ ]

/-- A word selects a row (R48). -/
def OpcodeRow.selects (r : OpcodeRow) (w : Cmd) : Bool := decide (w &&& r.mask = r.pattern)

/-- The mnemonic of a command (R48, R55). -/
def Instr.mnemonic : Instr → String
  | .wrs _ _ => "WRS"
  | .rds _ => "RDS"
  | .trk => "TRK"
  | .rdp _ => "RDP"
  | .rdf _ => "RDF"
  | .wfu => "WFU"
  | .rdw _ => "RDW"

/-- The decoder as the opcode table asks for it: the command selected by an instruction whose bits are `w`, of
which the table gives `nbits`. There is one word, so bit `k` of `w` is bit `k` of `cmd` (R46); a number of more
than 20 bits is no command word. -/
def decodeTableWord (nbits w : Nat) : Option Instr :=
  if w % 2 ^ nbits < 2 ^ 20 then select (BitVec.ofNat 20 (w % 2 ^ nbits)) else none

/-- Format C from its three fields (R46). -/
def formatC (op : BitVec 4) (idx data : Byte) : Cmd := op ++ idx ++ data

/-- The word of a command (R48, R55). -/
def encode : Instr → Cmd
  | .wrs ch val => formatC 1#4 ch val
  | .rds ch => formatC 2#4 ch 0#8
  | .trk => formatC 3#4 0#8 0#8
  | .rdp ch => formatC 4#4 ch 0#8
  | .rdf ch => formatC 5#4 ch 0#8
  | .wfu => formatC 6#4 0#8 0#8
  | .rdw col => formatC 7#4 col 0#8

end Sys2Proof
end

