-- ==== Sys2Proof/Machine/State.lean ====
section
/-! DEFINITION. The state (spec 10_state): the four arrays of R10, which are all the state the spec gives the
block, and beside them the model's own fields: the configuration record, the host's next moves, and the outputs
of the run. -/

namespace Sys2Proof.Machine

open Sys2Proof

/-- The four array spaces of R31. -/
inductive Space where
  | cur | peak | flt | hist
deriving DecidableEq, Repr

/-- "The whole architectural state of the block is four arrays and nothing else" (R10). An array is the list of its
elements in index order. `peak` and `flt` hold integers whose bounds are the invariant `Memory.wf` (item U17). -/
structure Memory where
  /-- current-levels: the latest sample of each channel (R11). -/
  cur : List Byte
  /-- peak levels: the peak-hold height of each channel (R12). -/
  peak : List Nat
  /-- floating levels, each times `2 ^ FB` (R13). -/
  flt : List Nat
  /-- waterfall bitmap: the history word of each display column, bit `k` the age-`k` scan (R14, R86). -/
  hist : List HistWord
deriving DecidableEq, Repr

/-- How many elements an array has. -/
def Memory.count (m : Memory) : Space → Nat
  | .cur => m.cur.length
  | .peak => m.peak.length
  | .flt => m.flt.length
  | .hist => m.hist.length

/-- A list has exactly `n` elements: `l.length = n` (`hasLength_iff`), in a form Lean evaluates without nesting. -/
def hasLength {α : Type} : Nat → List α → Bool
  | 0, [] => true
  | 0, _ :: _ => false
  | _ + 1, [] => false
  | n + 1, _ :: t => hasLength n t

/-- Every array has exactly the elements its index space numbers (R10, R30). -/
def Memory.sized (c : Cfg) (m : Memory) : Bool :=
  hasLength c.bandwidth m.cur && hasLength c.bandwidth m.peak && hasLength c.bandwidth m.flt &&
  hasLength c.displayWidth m.hist

/-- The arrays are those of an instance: sized, and every element in its range (R15; `cur` by its type). -/
def Memory.wf (c : Cfg) (m : Memory) : Bool :=
  m.sized c && m.peak.all (fun p => decide (p ≤ c.spectrumHeight)) &&
  m.flt.all (fun f => decide (f ≤ c.maxLevel)) &&
  m.hist.all (fun w => decide (w.toNat ≤ 2 ^ c.waterfallDepth - 1))

/-- The machine. Only `mem` is state of the hardware (R10); every other field is the MODEL's own (assumption
logs 2 and 3). -/
structure State where
  /-- The configuration record: the first argument of R54's `exec`. No command reads it out or changes it (R6, R18). -/
  cfg : Cfg
  /-- The four arrays (R10). -/
  mem : Memory
  /-- What the host does from here on, first to last (R9, R120, R121). -/
  pending : List HostEvent
  /-- The position in the program: how many commands were issued since reset (R16). -/
  pos : Nat
  /-- The responses since reset, in issue order: the output of a run (R52, R120). -/
  responses : List Response
  /-- How many resets came before this one: the argument of the free value `Config.curReset`. -/
  resets : Nat
deriving DecidableEq, Repr

/-- The state is that of an instance of the hardware (R15). -/
def State.wf (s : State) : Bool := s.mem.wf s.cfg

/-- The one fault. The spec has none (R95, R100): no well-formed state raises it. -/
inductive Fault where
  /-- Raised by an element access, or by the bulk commands, in a state whose arrays do not have the elements of
  their index space, where MemRead and MemWrite are not defined (R31). No such state is an instance of the
  hardware, none is reached from reset, and every step keeps it so. Safe. -/
  | noSuchElement
deriving DecidableEq, Repr

/-- Reasons for which the model gives no meaning. -/
inductive Refusal where
  /-- Raised by an arm of `exec` that has no meaning yet; every arm has one, so nothing raises it. Safe. -/
  | notModelled (mnemonic : String)
deriving DecidableEq, Repr

/-- The outcome of one command or step. -/
abbrev Outcome := Host.Outcome State Fault Refusal

/-- The arrays after reset number `epoch` (R21, R111): `peak`, `flt` and `hist` all 0, `cur` whatever CUR_RESET
gives. -/
def Memory.afterReset (c : Cfg) (epoch : Nat) : Memory where
  cur := (List.range c.bandwidth).map (Config.curReset epoch)
  peak := List.replicate c.bandwidth 0
  flt := List.replicate c.bandwidth 0
  hist := List.replicate c.displayWidth 0#32

/-- The machine of configuration `c` right after reset number `epoch`, with the host about to do `pending`. A run
starts here (R120): at position 0 (R21) and with no response given. -/
def State.afterReset (c : Cfg) (epoch : Nat) (pending : List HostEvent) : State where
  cfg := c
  mem := Memory.afterReset c epoch
  pending := pending
  pos := 0
  responses := []
  resets := epoch

/-- This hardware right after power-up reset (R21, R22, R110), the host having presented nothing yet. -/
def State.reset : State := State.afterReset Cfg.thisHardware 0 []

end Sys2Proof.Machine
end

