-- ==== Sys2Proof/Machine/Flags.lean ====
section
/-! DEFINITION. There are no flags, condition codes or predicates (spec 10_state R17). What stands in their place is
the 2-bit status of a response (30_encoding R53). -/

namespace Sys2Proof.Machine

open Sys2Proof

/-- `rsp_status` of a status (R53). -/
def statusCode : Status → BitVec 2
  | .ok => 0#2
  | .eBadOp => 1#2
  | .eBadIdx => 2#2

end Sys2Proof.Machine
end

