-- ==== Sys2Proof/Machine/Operands.lean ====
section
/-! DEFINITION. The index spaces (spec 20_memory R30, R31) and the column-to-channel map (R36). There is one
operand form: a direct element index. -/

namespace Sys2Proof.Machine

open Sys2Proof

/-- The index bound of a space (R31). -/
def spaceBound (c : Cfg) : Space → Nat
  | .cur => c.bandwidth
  | .peak => c.bandwidth
  | .flt => c.bandwidth
  | .hist => c.displayWidth

/-- The element width of a space, in bits (R31). -/
def spaceWidth (c : Cfg) : Space → Nat
  | .cur => 8
  | .peak => c.peakWidth
  | .flt => c.levelWidth
  | .hist => c.waterfallDepth

/-- The channel a display column takes its sample from (R36): `floor ((x * BW) / DW)`, the product exact and taken
first. -/
def chmap (c : Cfg) (x : Nat) : Nat := x * c.bandwidth / c.displayWidth

/-- `zext_32` of an element (R8, R52). -/
def zext32 (v : Nat) : Data32 := BitVec.ofNat 32 v

end Sys2Proof.Machine
end

