-- ==== Sys2Proof/Machine/Ops.lean ====
section
/-! DEFINITION. The shared operations: element access (spec 20_memory R31), the two ends of a command, `respond`
and `refuse` (00_scope R8, 60_exceptions R99), reset (70_reset_and_hazards R111), and the three shapes of command
built from them. -/

namespace Sys2Proof.Machine

open Sys2Proof

/-- `MemRead(space, idx)` (R31, R32): the whole element, as one unsigned number. -/
def memRead (m : Memory) (sp : Space) (idx : Nat) : Option Nat :=
  match sp with
  | .cur => m.cur[idx]?.map BitVec.toNat
  | .peak => m.peak[idx]?
  | .flt => m.flt[idx]?
  | .hist => m.hist[idx]?.map BitVec.toNat

/-- `MemWrite(space, idx, v)` (R31): replaces the whole element. -/
def memWrite (m : Memory) (sp : Space) (idx v : Nat) : Option Memory :=
  if idx < m.count sp then
    some (match sp with
      | .cur => { m with cur := m.cur.set idx (BitVec.ofNat 8 v) }
      | .peak => { m with peak := m.peak.set idx v }
      | .flt => { m with flt := m.flt.set idx v }
      | .hist => { m with hist := m.hist.set idx (BitVec.ofNat 32 v) })
  else none

/-- The command's response leaves the block (R45, R52). -/
def answer (r : Response) (s : State) : State := { s with responses := s.responses ++ [r] }

/-- `respond(data)` (R8): the command ends normally. -/
def respond (d : Data32) (s : State) : State := answer ⟨.ok, d⟩ s

/-- `refuse(status)` (R8, R99): this hardware's only exception. The response carries the status and data 0, nothing
is saved and no array changes. There is no return from it (R102). -/
def refuse (st : Status) (s : State) : State := answer ⟨st, 0#32⟩ s

/-- The effect of `rst` (R111): the reset state, with a fresh CUR_RESET; the run starts again (R120) and the host
goes on with what it has pending. -/
def applyReset (s : State) : State := State.afterReset s.cfg (s.resets + 1) s.pending

/-- A command that returns one element: RDS, RDP, RDF, RDW (R61, R69, R70, R83). -/
def readElement (sp : Space) (idx : Byte) (s : State) : Outcome :=
  if spaceBound s.cfg sp ≤ idx.toNat then .next (refuse .eBadIdx s)
  else match memRead s.mem sp idx.toNat with
    | some v => .next (respond (zext32 v) s)
    | none => .fault .noSuchElement

/-- A command that replaces one element: WRS (R60). -/
def writeElement (sp : Space) (idx : Byte) (v : Nat) (s : State) : Outcome :=
  if spaceBound s.cfg sp ≤ idx.toNat then .next (refuse .eBadIdx s)
  else match memWrite s.mem sp idx.toNat v with
    | some m => .next (respond 0#32 { s with mem := m })
    | none => .fault .noSuchElement

/-- A bulk command: TRK, WFU (R68, R82). All its reads see the arrays before it (R8, R34). -/
def updateArrays (f : Cfg → Memory → Memory) (s : State) : Outcome :=
  if s.mem.sized s.cfg then .next (respond 0#32 { s with mem := f s.cfg s.mem })
  else .fault .noSuchElement

end Sys2Proof.Machine
end

