-- ==== Sys2Proof/Machine/SampleBuffer.lean ====
section
/-! DEFINITION. The sample buffer (spec 40_sample_buffer): WRS and RDS. -/

namespace Sys2Proof.Machine

open Sys2Proof

/-- `WRS ch, val` (R60): `cur[ch] <- val`; refused with E_BADIDX when `ch` is no channel. -/
def execWrs (ch val : Byte) (s : State) : Outcome := writeElement .cur ch val.toNat s

/-- `RDS ch` (R61): responds with `cur[ch]`; refused with E_BADIDX when `ch` is no channel. -/
def execRds (ch : Byte) (s : State) : Outcome := readElement .cur ch s

end Sys2Proof.Machine
end

