-- ==== Sys2Proof/Machine/SignalTracker.lean ====
section
/-! DEFINITION. The signal tracker peak hold (spec 41_signal_tracker): TRK, RDP and RDF. -/

namespace Sys2Proof.Machine

open Sys2Proof

/-- `clamp(lo, hi, v)` on mathematical integers (R8). -/
def clamp (lo hi v : Int) : Int := max lo (min hi v)

/-- The height of a sample (R65): `clamp(0, SH, HB - s)`, the difference a mathematical integer (R76). -/
def height (c : Cfg) (s : Byte) : Nat :=
  (clamp 0 c.spectrumHeight ((c.heightBasis : Int) - (s.toNat : Int))).toNat

/-- The peak step (R66): instant rise, else fall by 1, never below 0. -/
def peakStep (p h : Nat) : Nat := if h ≥ p then h else if p > 0 then p - 1 else p

/-- The floating step on stored values (R67): rise to `hq = h * 2 ^ FB`, else fall by STEPQ, floored at 0 (the
subtraction of naturals saturates, as R76 asks). -/
def fltStep (c : Cfg) (f h : Nat) : Nat := if h * 2 ^ c.fracBits ≥ f then h * 2 ^ c.fracBits else f - c.stepQ

/-- The document's real-valued floating rule (quoted in R67), which `fltStep` represents in fixed point (R75). No
command uses it: it is here so that the two can be compared. -/
def realFloatStep (c : Cfg) (level : ℚ) (h : Nat) : ℚ := if (h : ℚ) ≥ level then (h : ℚ) else max 0 (level - c.decayStep)

/-- One frame of both trackers, all channels, on the arrays before it (R68, R74). -/
def trackAll (c : Cfg) (m : Memory) : Memory :=
  { m with
    peak := List.zipWith (fun s p => peakStep p (height c s)) m.cur m.peak
    flt := List.zipWith (fun s f => fltStep c f (height c s)) m.cur m.flt }

/-- `TRK` (R68): one frame of the Signal Tracker. -/
def execTrk (s : State) : Outcome := updateArrays trackAll s

/-- `RDP ch` (R69): responds with `peak[ch]`; refused with E_BADIDX when `ch` is no channel. -/
def execRdp (ch : Byte) (s : State) : Outcome := readElement .peak ch s

/-- `RDF ch` (R70): responds with `flt[ch]`, twice the level; refused with E_BADIDX when `ch` is no channel. -/
def execRdf (ch : Byte) (s : State) : Outcome := readElement .flt ch s

end Sys2Proof.Machine
end

