-- ==== Sys2Proof/Machine/Waterfall.lean ====
section
/-! DEFINITION. The waterfall history (spec 42_waterfall): WFU and RDW. -/

namespace Sys2Proof.Machine

open Sys2Proof

/-- The threshold (R80): 1 when the raw sample is below WF, an unsigned and strict comparison. -/
def thr (c : Cfg) (s : Byte) : BitVec 1 := if s.toNat < c.waterfallFloor then 1#1 else 0#1

/-- The shift-and-insert step (R81): `((w << 1) | b) AND HIST_MASK`. -/
def shiftIn (c : Cfg) (w : HistWord) (b : BitVec 1) : HistWord := ((w <<< 1) ||| b.setWidth 32) &&& c.histMask

/-- The sample of a channel. The default stands for no element: `chmap` stays below BW (R37), and the bulk commands
run on sized arrays only. -/
def sampleOf (m : Memory) (i : Nat) : Byte := m.cur.getD i 0#8

/-- The bit one scan inserts into column `x` (R82). -/
def scanBit (c : Cfg) (m : Memory) (x : Nat) : BitVec 1 := thr c (sampleOf m (chmap c x))

/-- One scan, all columns, on the arrays before it (R82). -/
def scanAll (c : Cfg) (m : Memory) : Memory :=
  { m with hist := m.hist.mapIdx fun x w => shiftIn c w (scanBit c m x) }

/-- `WFU` (R82): one frame of the Waterfall History Buffer. -/
def execWfu (s : State) : Outcome := updateArrays scanAll s

/-- `RDW col` (R83): responds with `hist[col]`; refused with E_BADIDX when `col` is no column. -/
def execRdw (col : Byte) (s : State) : Outcome := readElement .hist col s

end Sys2Proof.Machine
end

