-- ==== Sys2Proof/Machine/Dispatch.lean ====
section
/-! DEFINITION. One arm per command (spec 30_encoding R48): each calls the meaning of its own rule (R54). -/

namespace Sys2Proof.Machine

open Sys2Proof

def exec (i : Instr) (s : State) : Host.Outcome State Fault Refusal :=
  match i with
  | .wrs ch val => Sys2Proof.Machine.execWrs ch val s
  | .rds ch => Sys2Proof.Machine.execRds ch s
  | .trk => Sys2Proof.Machine.execTrk s
  | .rdp ch => Sys2Proof.Machine.execRdp ch s
  | .rdf ch => Sys2Proof.Machine.execRdf ch s
  | .wfu => Sys2Proof.Machine.execWfu s
  | .rdw col => Sys2Proof.Machine.execRdw col s

end Sys2Proof.Machine
end

