-- ==== Sys2Proof/Machine/Transaction.lean ====
section
/-! DEFINITION. The transaction (spec 30_encoding R54): one command word in, one response out; and the host's moves
one at a time (10_state R16, 70_reset_and_hazards R120). -/

namespace Sys2Proof.Machine

open Sys2Proof

/-- One command word (R54): decode it; a refusal answers with its status and changes no array (R99), an accepted
command has its own effect. -/
def transact (w : Cmd) (s : State) : Outcome :=
  match decode s.cfg w with
  | .refused st => .next (refuse st s)
  | .accepted i => exec i s

/-- The position advances by 1 for every command, accepted or refused (R16). -/
def advance (s : State) : State := { s with pos := s.pos + 1 }

/-- The host's next move happens. With none left the block holds its state: it never acts on its own (R9, R105). -/
def hostMove (s : State) : Outcome :=
  match s.pending with
  | [] => .next s
  | .command w :: rest => transact w (advance { s with pending := rest })
  | .reset :: rest => .next (applyReset { s with pending := rest })

/-- The host's next move becomes the word `w`; the moves after it stay. -/
def present (w : Cmd) (s : State) : State := { s with pending := .command w :: s.pending.tail }

end Sys2Proof.Machine
end

