-- ==== Sys2Proof/Machine/Step.lean ====
section
/-! DEFINITION. One step is one move of the host at the block's port: one command, executed to completion, or one
reset (spec 00_scope R9, 30_encoding R54). -/

namespace Sys2Proof.Machine

open Sys2Proof

/-- One step. -/
def step (s : State) : Host.Outcome State Fault Refusal := hostMove s

/-- `s` with an instruction of the opcode table, given as the number `w` of `nbits` bits, as the host's next move. -/
def State.withFetchWord (s : State) (nbits w : Nat) : State := present (BitVec.ofNat 20 (w % 2 ^ nbits)) s

end Sys2Proof.Machine
end

