-- ==== Sys2Proof/Machine/Assembler.lean ====
section
/-! DEFINITION. The assembler syntax and the pseudo-instructions (spec 30_encoding R55, R57). -/

namespace Sys2Proof.Machine

open Sys2Proof

/-- One line of assembly: a mnemonic with numeric operands, or a raw word (R55). -/
inductive AsmLine where
  | wrs (ch val : Nat)
  | rds (ch : Nat)
  | trk
  | rdp (ch : Nat)
  | rdf (ch : Nat)
  | wfu
  | rdw (col : Nat)
  | word (w : Nat)
deriving DecidableEq, Repr

/-- An operand fits an 8-bit field, or the assembler refuses it (R55). -/
def fitByte (n : Nat) : Option Byte := if n ≤ 255 then some (BitVec.ofNat 8 n) else none

/-- The word of a line (R55). An index that fits its field but is outside its space is not refused. -/
def assemble : AsmLine → Option Cmd
  | .wrs ch val => (fitByte ch).bind fun i => (fitByte val).map fun v => encode (.wrs i v)
  | .rds ch => (fitByte ch).map fun i => encode (.rds i)
  | .trk => some (encode .trk)
  | .rdp ch => (fitByte ch).map fun i => encode (.rdp i)
  | .rdf ch => (fitByte ch).map fun i => encode (.rdf i)
  | .wfu => some (encode .wfu)
  | .rdw col => (fitByte col).map fun i => encode (.rdw i)
  | .word w => if w < 2 ^ 20 then some (BitVec.ofNat 20 w) else none

/-- The value of one digit, decimal or hexadecimal. -/
def digitValue (ch : Char) : Option Nat :=
  if '0' ≤ ch ∧ ch ≤ '9' then some (ch.toNat - '0'.toNat)
  else if 'a' ≤ ch ∧ ch ≤ 'f' then some (ch.toNat - 'a'.toNat + 10)
  else if 'A' ≤ ch ∧ ch ≤ 'F' then some (ch.toNat - 'A'.toNat + 10)
  else none

/-- Digits in a base, most significant first. -/
def digitsValue (base acc : Nat) : List Char → Option Nat
  | [] => some acc
  | d :: ds =>
    match digitValue d with
    | some v => if v < base then digitsValue base (acc * base + v) ds else none
    | none => none

/-- A number in decimal or `0x` hexadecimal (R55), of any count of digits, a small `x` and either case of digit being
the model's choice (assumption log 13). -/
def numberValue : List Char → Option Nat
  | '0' :: 'x' :: d :: ds => digitsValue 16 0 (d :: ds)
  | d :: ds => digitsValue 10 0 (d :: ds)
  | [] => none

/-- A finished token joins the list, unless it is empty. -/
def pushToken (t : List Char) (ts : List (List Char)) : List (List Char) := if t = [] then ts else t :: ts

/-- The tokens of a line: white space separates them, a comma is one of its own, and `#` ends the line (R55).
`t` is the token being read. -/
def tokens (t : List Char) : List Char → List (List Char)
  | [] => pushToken t []
  | ch :: chs =>
    if ch = '#' then pushToken t []
    else if ch = ' ' ∨ ch = '\t' then pushToken t (tokens [] chs)
    else if ch = ',' then pushToken t ([','] :: tokens [] chs)
    else tokens (t ++ [ch]) chs

/-- The line of a list of tokens; none where it is no line of R55. DESIGN CHOICE (assumption log 13): R55 writes a raw
word as `.word 0xOIIDD`, and here any number may follow `.word`, decimal or hexadecimal, of any count of digits;
`assemble` refuses one of more than 20 bits. -/
def lineOfTokens : List (List Char) → Option AsmLine
  | [['W', 'R', 'S'], a, [','], b] => (numberValue a).bind fun n => (numberValue b).map fun v => .wrs n v
  | [['R', 'D', 'S'], a] => (numberValue a).map .rds
  | [['T', 'R', 'K']] => some .trk
  | [['R', 'D', 'P'], a] => (numberValue a).map .rdp
  | [['R', 'D', 'F'], a] => (numberValue a).map .rdf
  | [['W', 'F', 'U']] => some .wfu
  | [['R', 'D', 'W'], a] => (numberValue a).map .rdw
  | [['.', 'w', 'o', 'r', 'd'], a] => (numberValue a).map .word
  | _ => none

/-- The word of one line of text (R55). -/
def assembleText (line : List Char) : Option Cmd := (lineOfTokens (tokens [] line)).bind assemble

/-- The pseudo-instructions of R57. -/
inductive Pseudo where
  /-- `SWEEP v0, v1, …`: one WRS per channel, in ascending order. -/
  | sweep (vs : List Byte)
  /-- `FILL v`: the same sample on every channel. -/
  | fill (v : Byte)
  /-- `UPDATE`: TRK, then WFU. -/
  | update
  /-- `FRAME v0, …`: a sweep and an update. -/
  | frame (vs : List Byte)
deriving DecidableEq, Repr

/-- The WRS commands of a sweep (R57). -/
def sweepOf (vs : List Byte) : List Instr := vs.mapIdx fun i v => .wrs (BitVec.ofNat 8 i) v

/-- The commands a pseudo-instruction stands for (R57); a sweep takes exactly BW samples. -/
def expand (c : Cfg) : Pseudo → Option (List Instr)
  | .sweep vs => if vs.length = c.bandwidth then some (sweepOf vs) else none
  | .fill v => some (sweepOf (List.replicate c.bandwidth v))
  | .update => some [.trk, .wfu]
  | .frame vs => if vs.length = c.bandwidth then some (sweepOf vs ++ [.trk, .wfu]) else none

/-- A program as the host presents it: the words of its commands, in order (R16, R120). -/
def program (is : List Instr) : List HostEvent := is.map fun i => .command (encode i)

end Sys2Proof.Machine
end

