-- ==== Sys2Proof/Machine/Port.lean ====
section
/-! DEFINITION. The ports, one clock edge at a time (spec 30_encoding R45, 70_reset_and_hazards R110 to R112, R116,
R119). `Machine.step` is the transaction of R54; this is the layer around it, with the command in flight that R45
implies. -/

namespace Sys2Proof.Machine

open Sys2Proof

/-- What the host drives at one edge of `clk` (R45). -/
structure PortIn where
  rst : Bool
  cmdValid : Bool
  cmd : Cmd
deriving DecidableEq, Repr

/-- What the block drives at that edge (R45). -/
structure PortOut where
  cmdReady : Bool
  rspValid : Bool
  rspStatus : BitVec 2
  rspData : Data32
deriving DecidableEq, Repr

/-- Where the one command in flight is (R45). -/
inductive Phase where
  /-- No command in flight: the block can take one. -/
  | idle
  /-- A command was issued; it takes effect at the edge after `left` more edges (R119). -/
  | busy (left : Nat) (w : Cmd)
  /-- The response is on the port, for this one cycle. -/
  | responding
deriving DecidableEq, Repr

/-- The block with its ports. `cycle` counts edges and only feeds the free values of the idle bus. -/
structure Port where
  block : State
  phase : Phase
  cycle : Nat
deriving DecidableEq, Repr

/-- Right after power-up reset (R110, R111). -/
def Port.reset (c : Cfg) : Port := { block := State.afterReset c 0 [], phase := .idle, cycle := 0 }

/-- The values the block drives, sampled at an edge at which the host drives `rst` (R45). While `rst` is 1 all four
are free values: R111 fixes `cmd_ready` and `rsp_valid` from the first edge with `rst` 0. In a cycle without a
response the two response buses are free values (item U7). -/
def portOut (rst : Bool) (p : Port) : PortOut :=
  if rst then
    { cmdReady := Config.readyInReset p.cycle
      rspValid := Config.validInReset p.cycle
      rspStatus := Config.idleStatus p.cycle
      rspData := Config.idleData p.cycle }
  else match p.phase, p.block.responses.getLast? with
    | .responding, some r =>
      { cmdReady := false, rspValid := true, rspStatus := statusCode r.status, rspData := r.data }
    | ph, _ =>
      { cmdReady := decide (ph = .idle)
        rspValid := false
        rspStatus := Config.idleStatus p.cycle
        rspData := Config.idleData p.cycle }

/-- A command in flight at an edge: it waits while edges are `left`, and at the last one it takes effect as a whole
(R34) and its response shows in the next cycle. That its effect falls on this edge is the model's choice, which no
command can tell from another (assumption log 9). -/
def carry (left : Nat) (w : Cmd) (p : Port) : Host.Outcome Port Fault Refusal :=
  match left with
  | k + 1 => .next { p with phase := .busy k w, cycle := p.cycle + 1 }
  | 0 =>
    match transact w (advance p.block) with
    | .next b => .next { block := b, phase := .responding, cycle := p.cycle + 1 }
    | .fault f => .fault f
    | .refused r => .refused r

/-- One rising edge of `clk`. `rst` wins over everything and abandons a command in flight (R111, R112); a command is
issued when the block is ready and `cmd_valid` is 1 (R45), and a word presented while it is not ready is ignored
(R116). DESIGN CHOICE (assumption log 9): the soonest response, at the free value 0, shows in the cycle right after
the cycle of issue, so LATENCY(op) is `Config.latency op + 1` cycles; R45 and R119 leave the number open, and a response
in the very cycle of issue is left out. -/
def clockEdge (i : PortIn) (p : Port) : Host.Outcome Port Fault Refusal :=
  if i.rst then .next { block := applyReset p.block, phase := .idle, cycle := p.cycle + 1 }
  else match p.phase with
    | .idle =>
      if i.cmdValid then carry (Config.latency (opOf i.cmd)) i.cmd p
      else .next { p with cycle := p.cycle + 1 }
    | .busy left w => carry left w p
    | .responding => .next { p with phase := .idle, cycle := p.cycle + 1 }

/-- The edges of a list of inputs, first to last. -/
def clockEdges : List PortIn → Port → Host.Outcome Port Fault Refusal
  | [], p => .next p
  | i :: is, p =>
    match clockEdge i p with
    | .next q => clockEdges is q
    | .fault f => .fault f
    | .refused r => .refused r

end Sys2Proof.Machine
end

