-- ==== Sys2Proof/Machine/Ring.lean ====
section
/-! DEFINITION. The circular row memory that an implementation may keep in place of the history words (spec 10_state
R19, 42_waterfall R87). It is no state of the machine: it is here so that "unobservable" can be stated. -/

namespace Sys2Proof.Machine

open Sys2Proof

/-- A row memory of WD rows by DW bits with a write pointer (R87). -/
structure Ring where
  rows : List (List (BitVec 1))
  ptr : Nat
deriving DecidableEq, Repr

/-- WD rows of DW bits and a pointer to one of them. -/
def Ring.sized (c : Cfg) (r : Ring) : Bool :=
  decide (r.rows.length = c.waterfallDepth) && r.rows.all (fun row => decide (row.length = c.displayWidth)) &&
  decide (r.ptr < c.waterfallDepth)

/-- `row[(ptr - 1 - k) mod WD][x]`, for `k` below WD (R87). -/
def Ring.bit (c : Cfg) (r : Ring) (x k : Nat) : BitVec 1 :=
  (r.rows.getD ((r.ptr + c.waterfallDepth - 1 - k) % c.waterfallDepth) []).getD x 0#1

/-- One scan: the row at the pointer is overwritten and the pointer advances (R87). -/
def Ring.scan (c : Cfg) (m : Memory) (r : Ring) : Ring where
  rows := r.rows.set r.ptr ((List.range c.displayWidth).map (scanBit c m))
  ptr := (r.ptr + 1) % c.waterfallDepth

/-- The ring holds the same bits as the history words: `hist[x][k] = row[(ptr - 1 - k) mod WD][x]` (R87). -/
def Ring.Holds (c : Cfg) (r : Ring) (hist : List HistWord) : Prop :=
  ∀ x w, hist[x]? = some w → ∀ k, k < c.waterfallDepth → w.extractLsb' k 1 = r.bit c x k

end Sys2Proof.Machine
end

