-- ==== Sys2Proof/Safety.lean ====
section
/-! DEFINITION. What a correct host does and what a run gone wrong is (spec 60_exceptions R99,
70_reset_and_hazards R114, R121; 40_sample_buffer R62), and the invariants beyond `State.wf`. The block checks none
of this: these are premises and conclusions of claims. -/

namespace Sys2Proof.Machine

open Sys2Proof

/-- `k` steps, one after the other; a run ends with its program (R120). -/
def runSteps : Nat → State → Outcome
  | 0, s => .next s
  | k + 1, s =>
    match step s with
    | .next t => runSteps k t
    | .fault f => .fault f
    | .refused r => .refused r

/-- A run has gone wrong when some command of it was refused (R99; items U12, U13). -/
def goneWrong (s : State) : Bool := s.responses.any fun r => decide (r.status ≠ .ok)

/-- The channel a command writes. -/
def writtenChannel : Instr → Option Nat
  | .wrs ch _ => some ch.toNat
  | .rds _ => none
  | .trk => none
  | .rdp _ => none
  | .rdf _ => none
  | .wfu => none
  | .rdw _ => none

/-- A command that only reads (R34). -/
def isReadCommand : Instr → Bool
  | .wrs _ _ => false
  | .rds _ => true
  | .trk => false
  | .rdp _ => true
  | .rdf _ => true
  | .wfu => false
  | .rdw _ => true

/-- One complete sweep: every command is a WRS, and every channel is written exactly once, in any order
(R62, R114). -/
def completeSweep (c : Cfg) (is : List Instr) : Prop :=
  (is.map writtenChannel).Perm ((List.range c.bandwidth).map some)

/-- The commands of one frame (R114): a complete sweep, exactly one TRK and one WFU with no WRS between, then any
number of reads. -/
def isFrame (c : Cfg) (is : List Instr) : Prop :=
  ∃ sweep reads, completeSweep c sweep ∧ (∀ i ∈ reads, isReadCommand i = true ∧ i.wellFormed c = true) ∧
    (is = sweep ++ [.trk, .wfu] ++ reads ∨ is = sweep ++ [.wfu, .trk] ++ reads)

/-- The sample a sweep leaves for channel `i`: that of its last WRS to `i`. -/
def sweptSample (i : Nat) : List Instr → Option Byte
  | [] => none
  | .wrs ch val :: is =>
    match sweptSample i is with
    | some v => some v
    | none => if ch.toNat = i then some val else none
  | .rds _ :: is => sweptSample i is
  | .trk :: is => sweptSample i is
  | .rdp _ :: is => sweptSample i is
  | .rdf _ :: is => sweptSample i is
  | .wfu :: is => sweptSample i is
  | .rdw _ :: is => sweptSample i is

/-- The bits that a list of commands inserts into column `x`, oldest first, when it starts on the samples `cur`
(R82, R85). -/
def insertedBits (c : Cfg) (x : Nat) : List Byte → List Instr → List (BitVec 1)
  | _, [] => []
  | cur, .wrs ch val :: is => insertedBits c x (cur.set ch.toNat val) is
  | cur, .rds _ :: is => insertedBits c x cur is
  | cur, .trk :: is => insertedBits c x cur is
  | cur, .rdp _ :: is => insertedBits c x cur is
  | cur, .rdf _ :: is => insertedBits c x cur is
  | cur, .wfu :: is => thr c (cur.getD (chmap c x) 0#8) :: insertedBits c x cur is
  | cur, .rdw _ :: is => insertedBits c x cur is

/-- The history word of column `x` holds the last WD of the bits `bits x` (oldest first), the newest in bit 0, and
zeros above (R85, R86). -/
def HistoryHolds (s : State) (bits : Nat → List (BitVec 1)) : Prop :=
  ∀ (x : Nat) (w : HistWord), s.mem.hist[x]? = some w →
    (∀ k, k < min (bits x).length s.cfg.waterfallDepth →
      w.extractLsb' k 1 = (bits x).getD ((bits x).length - 1 - k) 0#1) ∧
    ∀ k, min (bits x).length s.cfg.waterfallDepth ≤ k → w.getLsbD k = false

/-- The bits inserted into column `x` since reset, once the host's next move has happened: one more after WFU, none
after a reset (R82, R85, R111). -/
def bitsAfterStep (s : State) (x : Nat) (bits : List (BitVec 1)) : List (BitVec 1) :=
  match s.pending with
  | [] => bits
  | .reset :: _ => []
  | .command w :: _ => if decode s.cfg w = .accepted .wfu then bits ++ [scanBit s.cfg s.mem x] else bits

/-- The floating level of a channel is never below its peak level, in stored units (R72, for STEPQ = 1). -/
def FloatCoversPeak (s : State) : Prop :=
  ∀ i p f : Nat, s.mem.peak[i]? = some p → s.mem.flt[i]? = some f → p * 2 ^ s.cfg.fracBits ≤ f

/-- Columns that share a channel hold equal words (R88). -/
def SharedColumnsAgree (s : State) : Prop :=
  ∀ x y : Nat, x < s.cfg.displayWidth → y < s.cfg.displayWidth → chmap s.cfg x = chmap s.cfg y →
    s.mem.hist[x]? = s.mem.hist[y]?

end Sys2Proof.Machine
end

