-- ==== Sys2Proof/Certificates/Slice0/Obligations.lean ====
section
/-! DEFINITION. The statements about the model, from the numbered rules of spec/. Nothing is proved here. -/

open Sys2Proof Sys2Proof.Machine

namespace Sys2Proof.Machine

/-- `t` is `s` after one command that answered `r`: of what is not in the arrays, only the list of responses
changes, by `r`. -/
def Answered (r : Response) (s t : State) : Prop :=
  t.cfg = s.cfg ∧ t.pending = s.pending ∧ t.pos = s.pos ∧ t.resets = s.resets ∧ t.responses = s.responses ++ [r]

/-- In `s` the command `i` reads element `idx` of `sp`: it completes, answers with that element zero-extended to 32
bits, and changes no array; outside the space it completes with E_BADIDX and data 0. -/
def ReadsElement (i : Instr) (sp : Space) (idx : Byte) (s : State) : Prop :=
  (idx.toNat < spaceBound s.cfg sp → ∃ t d, exec i s = .next t ∧ memRead s.mem sp idx.toNat = some (BitVec.toNat d) ∧
    d.toNat < 2 ^ spaceWidth s.cfg sp ∧ t.mem = s.mem ∧ Answered ⟨.ok, d⟩ s t) ∧
  (spaceBound s.cfg sp ≤ idx.toNat → ∃ t, exec i s = .next t ∧ t.mem = s.mem ∧ Answered ⟨.eBadIdx, 0#32⟩ s t)

/-- The display columns of this hardware that take their sample from channel `i`. -/
def columnsOf (i : Nat) : List Nat := (List.range 128).filter fun x => decide (chmap Cfg.thisHardware x = i)

end Sys2Proof.Machine

/-! ### The functions of one element -/

/-- R65. -/
def Obligations.HeightIsTheClampedDifference : Prop :=
  (∀ (c : Cfg) (s : Byte),
    (height c s : Int) = max 0 (min (c.spectrumHeight : Int) ((c.heightBasis : Int) - (s.toNat : Int))) ∧
    height c s = (if c.heightBasis ≤ s.toNat then 0
      else if c.spectrumHeight ≤ c.heightBasis - s.toNat then c.spectrumHeight else c.heightBasis - s.toNat) ∧
    height c s ≤ c.spectrumHeight ∧
    ∀ s' : Byte, s.toNat ≤ s'.toNat → height c s' ≤ height c s) ∧
  ∀ s : Byte, height Cfg.thisHardware s =
    if 95 ≤ s.toNat then 0 else if s.toNat ≤ 63 then 32 else 95 - s.toNat

/-- R66. -/
def Obligations.PeakStepRisesAtOnceFallsByOne : Prop :=
  ∀ p h : Nat,
    (p ≤ h → peakStep p h = h) ∧ (h < p → peakStep p h + 1 = p) ∧ h ≤ peakStep p h ∧
    ∀ c : Cfg, p ≤ c.spectrumHeight → h ≤ c.spectrumHeight → peakStep p h ≤ c.spectrumHeight

/-- R67. -/
def Obligations.FloatStepRisesAtOnceFallsByTheStep : Prop :=
  ∀ (c : Cfg) (f h : Nat),
    (f ≤ h * 2 ^ c.fracBits → fltStep c f h = h * 2 ^ c.fracBits) ∧
    (h * 2 ^ c.fracBits < f → (fltStep c f h : Int) = max 0 ((f : Int) - (c.stepQ : Int))) ∧
    (c.stepQ = 1 → h * 2 ^ c.fracBits < f → 1 ≤ f) ∧
    (c.stepQ = 1 → h * 2 ^ c.fracBits ≤ fltStep c f h) ∧
    (f ≤ c.maxLevel → h ≤ c.spectrumHeight → fltStep c f h ≤ c.maxLevel)

/-- R75: the stored integers follow the document's real-valued rule exactly, over any sequence of heights from
reset. -/
def Obligations.StoredLevelsAreTheRealLevels : Prop :=
  ∀ (c : Cfg) (hs : List Nat),
    ((hs.foldl (fltStep c) 0 : Nat) : ℚ) / 2 ^ c.fracBits = hs.foldl (realFloatStep c) 0 ∧
    ((∀ h ∈ hs, h ≤ c.spectrumHeight) → hs.foldl (fltStep c) 0 ≤ c.maxLevel)

/-- R80. -/
def Obligations.ThresholdIsUnsignedAndStrict : Prop :=
  (∀ (c : Cfg) (s : Byte), thr c s = if s.toNat < c.waterfallFloor then 1#1 else 0#1) ∧
  (∀ s : Byte, thr Cfg.thisHardware s = 1#1 ↔ s.toNat ≤ 87)

/-- R81. -/
def Obligations.ShiftInInsertsAtTheLowEnd : Prop :=
  ∀ (c : Cfg) (w : HistWord) (b : BitVec 1),
    (shiftIn c w b).toNat = (2 * w.toNat + b.toNat) % 2 ^ c.waterfallDepth ∧
    (shiftIn c w b).extractLsb' 0 1 = b ∧
    (∀ k, k + 1 < c.waterfallDepth → (shiftIn c w b).getLsbD (k + 1) = w.getLsbD k) ∧
    (∀ k, c.waterfallDepth ≤ k → (shiftIn c w b).getLsbD k = false)

/-- R37. -/
def Obligations.ColumnMapStaysInsideAndIsMonotonic : Prop :=
  (∀ (c : Cfg) (x : Nat), x < c.displayWidth → chmap c x < c.bandwidth) ∧
  (∀ (c : Cfg) (x y : Nat), x ≤ y → chmap c x ≤ chmap c y) ∧
  (chmap Cfg.thisHardware 0 = 0 ∧ chmap Cfg.thisHardware 127 = 87) ∧
  (∀ c : Cfg, c.bandwidth < c.displayWidth → ∃ x, x + 1 < c.displayWidth ∧ chmap c x = chmap c (x + 1)) ∧
  (∀ c : Cfg, c.displayWidth < c.bandwidth → ∃ i, i < c.bandwidth ∧ ∀ x, x < c.displayWidth → chmap c x ≠ i) ∧
  (∀ i, i < 88 → ∃ x, columnsOf i = [x] ∨ columnsOf i = [x, x + 1]) ∧
  ((List.range 88).countP fun i => decide ((columnsOf i).length = 2)) = 40 ∧
  ((List.range 88).countP fun i => decide ((columnsOf i).length = 1)) = 48

/-- R42: the printed map, its pattern (16 columns on, 11 channels on) and the channels that serve two columns. -/
def Obligations.ColumnMapOfThisHardware : Prop :=
  (List.range 16).map (chmap Cfg.thisHardware) = [0, 0, 1, 2, 2, 3, 4, 4, 5, 6, 6, 7, 8, 8, 9, 10] ∧
  (∀ x, x < 112 → chmap Cfg.thisHardware (x + 16) = chmap Cfg.thisHardware x + 11) ∧
  ∀ i, i < 88 → ((columnsOf i).length = 2 ↔ i % 11 ∈ [0, 2, 4, 6, 8])

/-! ### Encoding -/

/-- R48: the decoder selects a command exactly as the rows of the opcode map do, and no word selects two rows. -/
def Obligations.DecoderAgreesWithTheOpcodeMap : Prop :=
  ∀ w : Cmd,
    (∀ r ∈ opcodeRows, r.selects w = true ↔ ∃ i, select w = some i ∧ i.mnemonic = r.mnemonic) ∧
    (∀ i, select w = some i → ∃ r ∈ opcodeRows, r.selects w = true) ∧
    (∀ r ∈ opcodeRows, ∀ r' ∈ opcodeRows, r.selects w = true → r'.selects w = true → r = r')

/-- R51 without its count: the five tests of every word, in their order. -/
def Obligations.DecodingFollowsItsOrder : Prop :=
  ∀ (c : Cfg) (w : Cmd),
    if (opOf w).toNat ∉ [1, 2, 3, 4, 5, 6, 7] then decode c w = .refused .eBadOp
    else if (opOf w).toNat ∈ [2, 4, 5, 7] ∧ (dataOf w).toNat ≠ 0 then decode c w = .refused .eBadOp
    else if (opOf w).toNat ∈ [3, 6] ∧ ((idxOf w).toNat ≠ 0 ∨ (dataOf w).toNat ≠ 0) then
      decode c w = .refused .eBadOp
    else if (opOf w).toNat ∈ [1, 2, 4, 5] ∧ c.bandwidth ≤ (idxOf w).toNat then decode c w = .refused .eBadIdx
    else if (opOf w).toNat = 7 ∧ c.displayWidth ≤ (idxOf w).toNat then decode c w = .refused .eBadIdx
    else ∃ i, decode c w = .accepted i ∧ encode i = w

/-- R51, its count. -/
def Obligations.AcceptedWordsOfThisHardwareNumber22922 : Prop :=
  {w : Cmd | ∃ i, decode Cfg.thisHardware w = .accepted i}.ncard = 22922

/-- The encoding of every well-formed command decodes to it; that of any other is refused with E_BADIDX. -/
def Obligations.DecodeOfEncodeIsTheCommand : Prop :=
  ∀ (c : Cfg) (i : Instr),
    (i.wellFormed c = true → decode c (encode i) = .accepted i) ∧
    (i.wellFormed c = false → decode c (encode i) = .refused .eBadIdx)

/-- Every accepted word is the encoding of the command it decodes to, which is well formed. -/
def Obligations.AcceptedWordsAreEncodings : Prop :=
  ∀ (c : Cfg) (w : Cmd) (i : Instr), decode c w = .accepted i → encode i = w ∧ i.wellFormed c = true

/-- R56: the words the spec writes out. -/
def Obligations.WordsOfTheSpecDecode : Prop :=
  [(0x1055A#20, Instr.wrs 5 90), (0x20500#20, .rds 5), (0x30000#20, .trk), (0x40500#20, .rdp 5),
    (0x50500#20, .rdf 5), (0x60000#20, .wfu), (0x77F00#20, .rdw 127), (0x157FF#20, .wrs 87 255),
    (0x10000#20, .wrs 0 0)].all
    (fun e => decide (decode Cfg.thisHardware e.1 = .accepted e.2) && decide (encode e.2 = e.1)) = true

/-- The words R96, R97 and R98 name as refused, with their status. -/
def Obligations.WordsOfTheSpecAreRefused : Prop :=
  [(0x00000#20, Status.eBadOp), (0x80000#20, .eBadOp), (0xFFFFF#20, .eBadOp), (0x30001#20, .eBadOp),
    (0x60100#20, .eBadOp), (0x20501#20, .eBadOp), (0x15800#20, .eBadIdx), (0x1FF5A#20, .eBadIdx),
    (0x25800#20, .eBadIdx), (0x45800#20, .eBadIdx), (0x55800#20, .eBadIdx), (0x78000#20, .eBadIdx),
    (0x25801#20, .eBadOp)].all
    (fun e => decide (decode Cfg.thisHardware e.1 = .refused e.2)) = true

/-- R55: the word of every line, and which operands the assembler refuses. -/
def Obligations.AssemblerWordsAreShiftedFields : Prop :=
  (∀ ch val, ch ≤ 255 → val ≤ 255 →
    assemble (.wrs ch val) = some (BitVec.ofNat 20 (1 * 2 ^ 16 + ch * 2 ^ 8 + val))) ∧
  (∀ ch, ch ≤ 255 →
    assemble (.rds ch) = some (BitVec.ofNat 20 (2 * 2 ^ 16 + ch * 2 ^ 8)) ∧
    assemble (.rdp ch) = some (BitVec.ofNat 20 (4 * 2 ^ 16 + ch * 2 ^ 8)) ∧
    assemble (.rdf ch) = some (BitVec.ofNat 20 (5 * 2 ^ 16 + ch * 2 ^ 8)) ∧
    assemble (.rdw ch) = some (BitVec.ofNat 20 (7 * 2 ^ 16 + ch * 2 ^ 8))) ∧
  (assemble .trk = some 0x30000#20 ∧ assemble .wfu = some 0x60000#20) ∧
  (∀ ch val, 255 < ch ∨ 255 < val → assemble (.wrs ch val) = none) ∧
  (∀ ch, 255 < ch → assemble (.rds ch) = none ∧ assemble (.rdp ch) = none ∧ assemble (.rdf ch) = none ∧
    assemble (.rdw ch) = none) ∧
  (∀ w, w < 2 ^ 20 → assemble (.word w) = some (BitVec.ofNat 20 w)) ∧
  (assemble (.wrs 88 0) = some 0x15800#20 ∧ decode Cfg.thisHardware 0x15800#20 = .refused .eBadIdx)

/-- R57: SWEEP writes every channel once, in ascending order, with its own value. -/
def Obligations.SweepWritesEveryChannelOnce : Prop :=
  ∀ (c : Cfg) (vs : List Byte) (is : List Instr), expand c (.sweep vs) = some is →
    completeSweep c is ∧ is.map writtenChannel = (List.range c.bandwidth).map some ∧
    (∀ i, sweptSample i is = vs[i]?) ∧ expand c (.frame vs) = some (is ++ [.trk, .wfu])

/-- R57: which pseudo-instructions expand, and to what. -/
def Obligations.PseudoInstructionsExpand : Prop :=
  ∀ (c : Cfg) (vs : List Byte) (v : Byte),
    ((expand c (.sweep vs)).isSome = true ↔ vs.length = c.bandwidth) ∧
    ((expand c (.frame vs)).isSome = true ↔ vs.length = c.bandwidth) ∧
    expand c (.fill v) = expand c (.sweep (List.replicate c.bandwidth v)) ∧
    (expand c (.fill v)).isSome = true ∧
    expand c .update = some [.trk, .wfu]

/-! ### One step -/

/-- R54, the accepted half: a word at the port that decodes to `i` makes the step that of `i`, with the word taken
from the host's moves and the position advanced (R16). -/
def Obligations.StepRunsTheDecodedCommand : Prop :=
  ∀ (s : State) (w : Cmd) (rest : List HostEvent) (i : Instr),
    s.pending = .command w :: rest → decode s.cfg w = .accepted i →
      step s = exec i { s with pending := rest, pos := s.pos + 1 }

/-- R99. -/
def Obligations.RefusedWordChangesNothing : Prop :=
  ∀ (s : State) (w : Cmd) (rest : List HostEvent) (st : Status),
    s.pending = .command w :: rest → decode s.cfg w = .refused st →
      ∃ t, step s = .next t ∧ st ≠ .ok ∧ t.responses = s.responses ++ [⟨st, 0#32⟩] ∧
        t.mem = s.mem ∧ t.cfg = s.cfg ∧ t.resets = s.resets ∧ t.pending = rest ∧ t.pos = s.pos + 1 ∧
        goneWrong t = true ∧
        ∀ (w' : Cmd) (rest' : List HostEvent) (i : Instr),
          rest = .command w' :: rest' → decode s.cfg w' = .accepted i →
            step t = exec i { t with pending := rest', pos := t.pos + 1 }

/-- R9: "the block never acts on its own". That an empty list of moves is a step that changes nothing is the
model's form of it (assumption log 3). -/
def Obligations.StepWithoutMoveHoldsTheState : Prop :=
  ∀ s : State, s.pending = [] → step s = .next s

/-- R54: the arrays and the response of a command depend on the configuration, the arrays and the word, and on
nothing else of the state. -/
def Obligations.TransactionHasNoOtherInput : Prop :=
  ∀ (s s' t : State) (w : Cmd) (rest rest' : List HostEvent),
    s.cfg = s'.cfg → s.mem = s'.mem → s.pending = .command w :: rest → s'.pending = .command w :: rest' →
      step s = .next t → ∃ t' r, step s' = .next t' ∧ t'.mem = t.mem ∧
        t.responses = s.responses ++ [r] ∧ t'.responses = s'.responses ++ [r]

/-- R52: what the response of a command carries, in every well-formed state. -/
def Obligations.ResponsesCarryTheirData : Prop :=
  ∀ (s : State) (w : Cmd) (rest : List HostEvent), s.wf = true → s.pending = .command w :: rest →
    ∃ t r, step s = .next t ∧ t.responses = s.responses ++ [r] ∧ statusCode r.status ≠ 3#2 ∧
      match decode s.cfg w with
      | .refused st => r = ⟨st, 0#32⟩ ∧ st ≠ .ok
      | .accepted (.wrs _ _) => r = ⟨.ok, 0#32⟩
      | .accepted (.rds ch) =>
        r.status = .ok ∧ memRead s.mem .cur ch.toNat = some r.data.toNat ∧ r.data.toNat < 2 ^ 8
      | .accepted .trk => r = ⟨.ok, 0#32⟩
      | .accepted (.rdp ch) =>
        r.status = .ok ∧ memRead s.mem .peak ch.toNat = some r.data.toNat ∧ r.data.toNat < 2 ^ s.cfg.peakWidth
      | .accepted (.rdf ch) =>
        r.status = .ok ∧ memRead s.mem .flt ch.toNat = some r.data.toNat ∧ r.data.toNat < 2 ^ s.cfg.levelWidth
      | .accepted .wfu => r = ⟨.ok, 0#32⟩
      | .accepted (.rdw col) =>
        r.status = .ok ∧ memRead s.mem .hist col.toNat = some r.data.toNat ∧
          r.data.toNat < 2 ^ s.cfg.waterfallDepth

/-- R20: only WRS changes `cur`, only TRK `peak` and `flt`, only WFU `hist`; reset aside, nothing else does. -/
def Obligations.EachArrayHasOneProducer : Prop :=
  ∀ s t : State, step s = .next t → (∀ rest, s.pending ≠ .reset :: rest) →
    (t.mem.cur ≠ s.mem.cur →
      ∃ w rest ch val, s.pending = .command w :: rest ∧ decode s.cfg w = .accepted (.wrs ch val)) ∧
    (t.mem.peak ≠ s.mem.peak ∨ t.mem.flt ≠ s.mem.flt →
      ∃ w rest, s.pending = .command w :: rest ∧ decode s.cfg w = .accepted .trk) ∧
    (t.mem.hist ≠ s.mem.hist →
      ∃ w rest, s.pending = .command w :: rest ∧ decode s.cfg w = .accepted .wfu) ∧
    t.cfg = s.cfg ∧ t.resets = s.resets

/-! ### The commands -/

/-- R60. The one element written is `cur[ch]`; every other element of every array reads as before. -/
def Obligations.WrsStoresOneSample : Prop :=
  ∀ (s : State) (ch val : Byte), s.mem.sized s.cfg = true →
    (ch.toNat < s.cfg.bandwidth → ∃ t, exec (.wrs ch val) s = .next t ∧
      memRead t.mem .cur ch.toNat = some val.toNat ∧
      (∀ sp j, ¬(sp = .cur ∧ j = ch.toNat) → memRead t.mem sp j = memRead s.mem sp j) ∧
      Answered ⟨.ok, 0#32⟩ s t) ∧
    (s.cfg.bandwidth ≤ ch.toNat → ∃ t, exec (.wrs ch val) s = .next t ∧ t.mem = s.mem ∧
      Answered ⟨.eBadIdx, 0#32⟩ s t)

/-- R61, R69, R70, R83. -/
def Obligations.ReadCommandsReturnTheirElement : Prop :=
  ∀ (s : State) (idx : Byte), s.wf = true →
    ReadsElement (.rds idx) .cur idx s ∧ ReadsElement (.rdp idx) .peak idx s ∧
    ReadsElement (.rdf idx) .flt idx s ∧ ReadsElement (.rdw idx) .hist idx s

/-- R68. -/
def Obligations.TrkUpdatesEveryChannel : Prop :=
  ∀ s : State, s.mem.sized s.cfg = true → ∃ t, exec .trk s = .next t ∧
    (∀ (i : Nat) (a : Byte) (p f : Nat),
      s.mem.cur[i]? = some a → s.mem.peak[i]? = some p → s.mem.flt[i]? = some f →
        t.mem.peak[i]? = some (if p ≤ height s.cfg a then height s.cfg a else p - 1) ∧
        t.mem.flt[i]? = some (if f ≤ height s.cfg a * 2 ^ s.cfg.fracBits then height s.cfg a * 2 ^ s.cfg.fracBits
          else f - s.cfg.stepQ)) ∧
    t.mem.peak.length = s.cfg.bandwidth ∧ t.mem.flt.length = s.cfg.bandwidth ∧
    t.mem.cur = s.mem.cur ∧ t.mem.hist = s.mem.hist ∧ Answered ⟨.ok, 0#32⟩ s t

/-- R82. -/
def Obligations.WfuShiftsEveryColumn : Prop :=
  ∀ s : State, s.mem.sized s.cfg = true → ∃ t, exec .wfu s = .next t ∧
    (∀ x, x < s.cfg.displayWidth → ∃ a w w', s.mem.cur[x * s.cfg.bandwidth / s.cfg.displayWidth]? = some a ∧
      s.mem.hist[x]? = some w ∧ t.mem.hist[x]? = some w' ∧
      BitVec.toNat w' = (2 * BitVec.toNat w + if BitVec.toNat a < s.cfg.waterfallFloor then 1 else 0) %
        2 ^ s.cfg.waterfallDepth) ∧
    t.mem.hist.length = s.cfg.displayWidth ∧
    t.mem.cur = s.mem.cur ∧ t.mem.peak = s.mem.peak ∧ t.mem.flt = s.mem.flt ∧ Answered ⟨.ok, 0#32⟩ s t

/-- R84: the new bit, the bits that move up, and that the oldest bit leaves no trace. -/
def Obligations.WfuShiftInvariant : Prop :=
  ∀ s : State, s.mem.sized s.cfg = true → ∃ t, exec .wfu s = .next t ∧
    (∀ (x : Nat) (a : Byte) (w : HistWord),
      s.mem.hist[x]? = some w → s.mem.cur[chmap s.cfg x]? = some a →
        ∃ w', t.mem.hist[x]? = some w' ∧ BitVec.extractLsb' 0 1 w' = thr s.cfg a ∧
          ∀ k, k + 2 ≤ s.cfg.waterfallDepth → BitVec.getLsbD w' (k + 1) = w.getLsbD k) ∧
    ∀ s' : State, s'.mem.sized s'.cfg = true → s'.cfg = s.cfg → s'.mem.cur = s.mem.cur →
      (∀ (x : Nat) (w w' : HistWord), s.mem.hist[x]? = some w → s'.mem.hist[x]? = some w' →
        ∀ k, k + 2 ≤ s.cfg.waterfallDepth → w.getLsbD k = w'.getLsbD k) →
      ∃ t', exec .wfu s' = .next t' ∧ t'.mem.hist = t.mem.hist

/-- R71: both peak laws and their consequences, for every TRK and every channel. -/
def Obligations.PeakLawsHoldAtEveryFrame : Prop :=
  ∀ s : State, s.mem.sized s.cfg = true → ∃ t, exec .trk s = .next t ∧
    ∀ i, i < s.cfg.bandwidth → ∃ a p p', s.mem.cur[i]? = some a ∧ s.mem.peak[i]? = some p ∧
      t.mem.peak[i]? = some p' ∧
      (p ≤ height s.cfg a → p' = height s.cfg a) ∧
      (height s.cfg a < p → (p' : Int) = max 0 ((p : Int) - 1)) ∧
      height s.cfg a ≤ p' ∧ (p : Int) - 1 ≤ (p' : Int) ∧
      (1 ≤ p → p' = max (height s.cfg a) (p - 1)) ∧ (p = 0 → p' = height s.cfg a) ∧
      (p' : Int) = max (max (height s.cfg a : Int) ((p : Int) - 1)) 0

/-- R115. -/
def Obligations.TrackerAndWaterfallCommute : Prop :=
  ∀ s : State, s.mem.sized s.cfg = true →
    ∃ a b t, exec .trk s = .next a ∧ exec .wfu a = .next t ∧ exec .wfu s = .next b ∧ exec .trk b = .next t

/-- R34: reading twice gives the same answer and changes no array; writing twice is writing once; TRK and WFU are
not idempotent. -/
def Obligations.ReadsAndWritesRepeatBulkCommandsDoNot : Prop :=
  (∀ (i : Instr) (s t : State), isReadCommand i = true → exec i s = .next t →
    t.mem = s.mem ∧ ∃ u r, exec i t = .next u ∧ u.mem = s.mem ∧
      t.responses = s.responses ++ [r] ∧ u.responses = t.responses ++ [r]) ∧
  (∀ (s t : State) (ch val : Byte), exec (.wrs ch val) s = .next t →
    ∃ u, exec (.wrs ch val) t = .next u ∧ u.mem = t.mem) ∧
  (∃ s t u, s.wf = true ∧ exec .trk s = .next t ∧ exec .trk t = .next u ∧ u.mem ≠ t.mem) ∧
  (∃ s t u, s.wf = true ∧ exec .wfu s = .next t ∧ exec .wfu t = .next u ∧ u.mem ≠ t.mem)

/-- R38: a read after a write to the same channel returns the written value. -/
def Obligations.ReadAfterWriteReturnsTheSample : Prop :=
  ∀ (s : State) (ch val : Byte), s.mem.sized s.cfg = true → ch.toNat < s.cfg.bandwidth →
    ∃ t u, exec (.wrs ch val) s = .next t ∧ exec (.rds ch) t = .next u ∧ u.mem = t.mem ∧
      u.responses = t.responses ++ [⟨.ok, val.setWidth 32⟩]

/-! ### Reset and the invariants -/

/-- R21, R111: what a reset between commands leaves, whatever the state was. The clauses `pos = 0`, `responses = []` and
`pending = rest` are the model's reading (assumption log 4, DEDUCED); that two machines of equal configuration and
equal reset count get equal `cur` is the model's choice of the free value (assumption log 1, DESIGN CHOICE). -/
def Obligations.ResetClearsTrackersAndHistory : Prop :=
  ∀ (s : State) (rest : List HostEvent), s.pending = .reset :: rest →
    ∃ t, step s = .next t ∧ t.mem.sized s.cfg = true ∧
      (∀ p ∈ t.mem.peak, p = 0) ∧ (∀ f ∈ t.mem.flt, f = 0) ∧ (∀ w ∈ t.mem.hist, w = 0#32) ∧
      (∀ i, i < s.cfg.bandwidth → t.mem.cur[i]? = some (Config.curReset t.resets i)) ∧
      t.cfg = s.cfg ∧ t.pos = 0 ∧ t.responses = [] ∧ t.pending = rest ∧
      ∀ (s' : State) (rest' : List HostEvent), s'.pending = .reset :: rest' → s'.cfg = s.cfg →
        s'.resets = s.resets → ∃ t', step s' = .next t' ∧ t'.mem = t.mem

/-- R21, R4: this hardware right after power-up. -/
def Obligations.PowerUpStateOfThisHardware : Prop :=
  State.reset.mem.peak = List.replicate 88 0 ∧ State.reset.mem.flt = List.replicate 88 0 ∧
  State.reset.mem.hist = List.replicate 128 0#32 ∧ State.reset.mem.cur.length = 88 ∧
  (∀ i, i < 88 → State.reset.mem.cur[i]? = some (Config.curReset 0 i)) ∧
  State.reset.pos = 0 ∧ State.reset.cfg.bandwidth = 88 ∧ State.reset.cfg.displayWidth = 128 ∧
  State.reset.cfg.spectrumHeight = 32 ∧ State.reset.cfg.heightBasis = 95 ∧ State.reset.cfg.waterfallFloor = 88 ∧
  State.reset.cfg.waterfallDepth = 32 ∧ State.reset.cfg.decayStep = 1 / 2 ∧
  State.reset.cfg.peakWidth = 6 ∧ State.reset.cfg.levelWidth = 7 ∧ State.reset.cfg.maxLevel = 64

/-- The three invariants hold right after reset, for every configuration, every reset contents of `cur` and
everything the host may do next. -/
def Obligations.ResetEstablishesTheInvariants : Prop :=
  ∀ (c : Cfg) (epoch : Nat) (pending : List HostEvent),
    (State.afterReset c epoch pending).wf = true ∧ FloatCoversPeak (State.afterReset c epoch pending) ∧
    SharedColumnsAgree (State.afterReset c epoch pending)

/-- R15: every step keeps every array sized and every element in its range. -/
def Obligations.StepKeepsElementsInRange : Prop :=
  ∀ s t : State, s.wf = true → step s = .next t → t.wf = true

/-- R72: with STEPQ = 1 every step keeps the floating level at or above the peak level. -/
def Obligations.StepKeepsFloatingAbovePeak : Prop :=
  ∀ s t : State, s.cfg.stepQ = 1 → FloatCoversPeak s → step s = .next t → FloatCoversPeak t ∧ t.cfg.stepQ = 1

/-- R88: every step keeps columns that share a channel equal. -/
def Obligations.StepKeepsSharedColumnsEqual : Prop :=
  ∀ s t : State, SharedColumnsAgree s → step s = .next t → SharedColumnsAgree t

/-- R54, R95: in a well-formed state no step faults or is refused by the model, whatever the host does. -/
def Obligations.WellFormedStateAlwaysSteps : Prop :=
  ∀ s : State, s.wf = true → ∃ t, step s = .next t

/-- R12 to R15, R31: in a well-formed state an element exists exactly below the bound of its space and fits the width
of its space. -/
def Obligations.ElementsFitTheirWidth : Prop :=
  ∀ (s : State) (sp : Space) (j : Nat), s.wf = true →
    ((∃ v, memRead s.mem sp j = some v) ↔ j < spaceBound s.cfg sp) ∧
    ∀ v, memRead s.mem sp j = some v → v < 2 ^ spaceWidth s.cfg sp

/-! ### Runs -/

/-- R73: under samples at or above HB a channel settles after exactly as many TRK as its stored values, and stays
settled (STEPQ = 1); the bounds SH and SHQ follow in every well-formed state. -/
def Obligations.QuietChannelSettlesExactly : Prop :=
  ∀ (s : State) (n i : Nat) (a : Byte) (p f : Nat),
    s.wf = true → s.cfg.stepQ = 1 → s.pending = List.replicate n (.command 0x30000#20) →
    s.mem.cur[i]? = some a → s.mem.peak[i]? = some p → s.mem.flt[i]? = some f → s.cfg.heightBasis ≤ a.toNat →
      ∃ t, runSteps n s = .next t ∧ t.mem.peak[i]? = some (p - n) ∧ t.mem.flt[i]? = some (f - n) ∧
        (s.cfg.spectrumHeight ≤ n → t.mem.peak[i]? = some 0) ∧ (s.cfg.maxLevel ≤ n → t.mem.flt[i]? = some 0)

/-- R85, R86: after any commands from reset, a history word holds the bits inserted since, the latest in bit 0, WD of
them at most, and zeros above. -/
def Obligations.HistoryHoldsTheLastInsertedBits : Prop :=
  ∀ (c : Cfg) (epoch : Nat) (is : List Instr), ∃ t,
    runSteps is.length (State.afterReset c epoch (program is)) = .next t ∧
    ∀ x, x < c.displayWidth → ∃ w bs, t.mem.hist[x]? = some w ∧
      bs = insertedBits c x (Memory.afterReset c epoch).cur is ∧ bs.length = is.count .wfu ∧
      BitVec.toNat w = ∑ j ∈ Finset.range (min bs.length c.waterfallDepth),
        (bs.getD (bs.length - 1 - j) 0#1).toNat * 2 ^ j ∧
      (∀ k, k < min bs.length c.waterfallDepth → BitVec.extractLsb' k 1 w = bs.getD (bs.length - 1 - k) 0#1) ∧
      (∀ k, min bs.length c.waterfallDepth ≤ k → BitVec.getLsbD w k = false)

/-- R114, R62: a frame with a complete sweep uses its own samples and no older one, and no command of it is refused. -/
def Obligations.FrameUsesItsOwnSweep : Prop :=
  ∀ (s : State) (is : List Instr), s.wf = true → isFrame s.cfg is → s.pending = program is →
    ∃ t, runSteps is.length s = .next t ∧ t.pending = [] ∧
      (∃ rs : List Response, t.responses = s.responses ++ rs ∧ rs.length = is.length ∧
        ∀ r ∈ rs, r.status = .ok) ∧
      (∀ i, i < s.cfg.bandwidth → ∃ v p f, sweptSample i is = some v ∧ s.mem.peak[i]? = some p ∧
        s.mem.flt[i]? = some f ∧ t.mem.cur[i]? = some v ∧
        t.mem.peak[i]? = some (peakStep p (height s.cfg v)) ∧
        t.mem.flt[i]? = some (fltStep s.cfg f (height s.cfg v))) ∧
      (∀ x, x < s.cfg.displayWidth → ∃ v w, sweptSample (chmap s.cfg x) is = some v ∧
        s.mem.hist[x]? = some w ∧ t.mem.hist[x]? = some (shiftIn s.cfg w (thr s.cfg v)))

/-- R113: the first frame after reset depends on its samples alone, whatever the reset contents of `cur`. -/
def Obligations.FirstFrameForgetsTheResetSamples : Prop :=
  ∀ (c : Cfg) (epoch : Nat) (vs : List Byte) (is : List Instr), expand c (.frame vs) = some is →
    ∃ t, runSteps is.length (State.afterReset c epoch (program is)) = .next t ∧ goneWrong t = false ∧
      t.mem.cur = vs ∧
      (∀ (i : Nat) (v : Byte), vs[i]? = some v → t.mem.peak[i]? = some (height c v) ∧
        t.mem.flt[i]? = some (height c v * 2 ^ c.fracBits)) ∧
      (∀ x, x < c.displayWidth → ∃ v, vs[chmap c x]? = some v ∧
        t.mem.hist[x]? = some (if BitVec.toNat v < c.waterfallFloor then 1#32 else 0#32))

/-- R87, R19: a circular row memory with a write pointer holds the same bits as the history words, at reset and
after every scan, and in every well-formed state RDW answers exactly the word its bits make. -/
def Obligations.CircularMemoryIsUnobservable : Prop :=
  (∀ c : Cfg,
    Ring.sized c ⟨List.replicate c.waterfallDepth (List.replicate c.displayWidth 0#1), 0⟩ = true ∧
    Ring.Holds c ⟨List.replicate c.waterfallDepth (List.replicate c.displayWidth 0#1), 0⟩
      (List.replicate c.displayWidth 0#32)) ∧
  (∀ (c : Cfg) (m : Memory) (r : Ring), m.sized c = true → r.sized c = true → r.Holds c m.hist →
    (r.scan c m).sized c = true ∧ (r.scan c m).Holds c (scanAll c m).hist) ∧
  (∀ (s : State) (r : Ring) (col : Byte), s.wf = true → r.sized s.cfg = true → r.Holds s.cfg s.mem.hist →
    col.toNat < s.cfg.displayWidth → ∃ t d, exec (.rdw col) s = .next t ∧ t.mem = s.mem ∧
      Answered ⟨.ok, d⟩ s t ∧
      (∀ k, k < s.cfg.waterfallDepth → d.extractLsb' k 1 = r.bit s.cfg col.toNat k) ∧
      (∀ k, s.cfg.waterfallDepth ≤ k → BitVec.getLsbD d k = false))

/-- R85, R86 as a step lemma: every step keeps each history word equal to the last WD bits inserted since reset. -/
def Obligations.StepKeepsHistoryTheInsertedBits : Prop :=
  ∀ (s t : State) (bits : Nat → List (BitVec 1)), HistoryHolds s bits → step s = .next t →
    HistoryHolds t fun x => bitsAfterStep s x (bits x)

/-- R122: what reads answer between one update and the next, with or without writes among them: RDP, RDF and RDW answer
as in the state before, and RDS answers the sample of the last WRS to its channel, or the old one if there is none. -/
def Obligations.ReadsBetweenUpdatesSeeTheirFrame : Prop :=
  ∀ (s : State) (is : List Instr), s.wf = true → s.pending = program is →
    (∀ i ∈ is, i.wellFormed s.cfg = true ∧ i ≠ .trk ∧ i ≠ .wfu) →
      ∃ t rs, runSteps is.length s = .next t ∧ t.responses = s.responses ++ rs ∧ rs.length = is.length ∧
        t.mem.peak = s.mem.peak ∧ t.mem.flt = s.mem.flt ∧ t.mem.hist = s.mem.hist ∧
        ∀ (j : Nat) (idx : Byte),
          (is[j]? = some (.rdp idx) → ∃ v, memRead s.mem .peak idx.toNat = some v ∧ rs[j]? = some ⟨.ok, zext32 v⟩) ∧
          (is[j]? = some (.rdf idx) → ∃ v, memRead s.mem .flt idx.toNat = some v ∧ rs[j]? = some ⟨.ok, zext32 v⟩) ∧
          (is[j]? = some (.rdw idx) → ∃ v, memRead s.mem .hist idx.toNat = some v ∧ rs[j]? = some ⟨.ok, zext32 v⟩) ∧
          (is[j]? = some (.rds idx) → ∃ v : Byte,
            (sweptSample idx.toNat (is.take j)).or s.mem.cur[idx.toNat]? = some v ∧
            rs[j]? = some ⟨.ok, v.setWidth 32⟩)

/-! ### The ports -/

/-- R110, R111, R112: an edge with `rst` 1 leaves the reset state from any phase and gives no response. That `cmd_ready`
is 1 and `rsp_valid` 0 at the very next edge with `rst` 0 is the model's reading (assumption log 10, DEDUCED), so is
`responses = []` (assumption log 4, DEDUCED); that two blocks of equal configuration and equal reset count get equal `cur` is the
model's choice of the free value (assumption log 1, DESIGN CHOICE). -/
def Obligations.PortResetAbandonsTheCommand : Prop :=
  ∀ (i : PortIn) (p : Port), i.rst = true → ∃ q, clockEdge i p = .next q ∧
    (∀ v ∈ q.block.mem.peak, v = 0) ∧ (∀ v ∈ q.block.mem.flt, v = 0) ∧ (∀ v ∈ q.block.mem.hist, v = 0#32) ∧
    q.block.mem.sized p.block.cfg = true ∧
    (∀ k, k < p.block.cfg.bandwidth → q.block.mem.cur[k]? = some (Config.curReset q.block.resets k)) ∧
    q.block.responses = [] ∧ (portOut false q).cmdReady = true ∧ (portOut false q).rspValid = false ∧
    ∀ p' : Port, p'.block.cfg = p.block.cfg → p'.block.resets = p.block.resets →
      ∃ q', clockEdge i p' = .next q' ∧ q'.block.mem = q.block.mem ∧ q'.phase = q.phase

/-- R45, R116, R119: a command issued at a ready port is answered, once, after its latency, with the response of the
transaction; until then the block is not ready and ignores what is presented; one cycle later it is ready again.
That the response shows `Config.latency op + 1` cycles after the cycle of issue, the free value being any number, is the
model's count (assumption log 9, DESIGN CHOICE). -/
def Obligations.PortAnswersEveryIssuedCommand : Prop :=
  ∀ (p : Port) (w : Cmd) (ins : List PortIn),
    p.block.wf = true → p.phase = .idle → (∀ i ∈ ins, i.rst = false) →
    ins.length = Config.latency (opOf w) →
      (portOut false p).cmdReady = true ∧
      (∀ k, k < ins.length → ∃ q, clockEdges (⟨false, true, w⟩ :: ins.take k) p = .next q ∧
        q.block = p.block ∧ (portOut false q).cmdReady = false ∧ (portOut false q).rspValid = false) ∧
      ∃ q b r, clockEdges (⟨false, true, w⟩ :: ins) p = .next q ∧
        transact w (advance p.block) = .next b ∧ q.block = b ∧ b.responses = p.block.responses ++ [r] ∧
        portOut false q = ⟨false, true, statusCode r.status, r.data⟩ ∧
        ∀ i : PortIn, i.rst = false → ∃ q', clockEdge i q = .next q' ∧ q'.block = b ∧
          (portOut false q').cmdReady = true ∧ (portOut false q').rspValid = false

/-- R15, R118 at the ports: no edge stops the block or takes an element out of its range. -/
def Obligations.ClockEdgesKeepElementsInRange : Prop :=
  ∀ (i : PortIn) (p : Port), p.block.wf = true → ∃ q, clockEdge i p = .next q ∧ q.block.wf = true
end

