-- ==== Sys2Proof/Laws/State.lean ====
section
/-! SUPPORT. What each update leaves in each field of the state, and what the sizes of the arrays say. -/

namespace Sys2Proof

/-- The legal ranges of R6, one by one. -/
theorem Cfg.ranges (c : Cfg) :
    (1 ≤ c.bandwidth ∧ c.bandwidth ≤ 256) ∧ (1 ≤ c.displayWidth ∧ c.displayWidth ≤ 256) ∧
      (1 ≤ c.spectrumHeight ∧ c.spectrumHeight ≤ 127) ∧ c.heightBasis ≤ 255 ∧ c.waterfallFloor ≤ 256 ∧
      (1 ≤ c.waterfallDepth ∧ c.waterfallDepth ≤ 32) ∧ c.fracBits ≤ 8 ∧ 1 ≤ c.stepQ ∧ c.maxLevel ≤ 65535 := by
  have h := c.isLegal
  simp only [Params.legal, Bool.and_eq_true, decide_eq_true_eq] at h
  obtain ⟨⟨⟨⟨⟨⟨⟨⟨h1, h2⟩, h3⟩, h4⟩, h5⟩, h6⟩, h7⟩, h8⟩, h9⟩ := h
  exact ⟨h1, h2, h3, h4, h5, h6, h7, h8, h9⟩

end Sys2Proof

namespace Sys2Proof.Machine

open Sys2Proof

section Answer
variable (r : Response) (s : State)

@[simp] theorem answer_cfg : (answer r s).cfg = s.cfg := rfl
@[simp] theorem answer_mem : (answer r s).mem = s.mem := rfl
@[simp] theorem answer_pending : (answer r s).pending = s.pending := rfl
@[simp] theorem answer_pos : (answer r s).pos = s.pos := rfl
@[simp] theorem answer_responses : (answer r s).responses = s.responses ++ [r] := rfl
@[simp] theorem answer_resets : (answer r s).resets = s.resets := rfl

end Answer

section Respond
variable (d : Data32) (s : State)

@[simp] theorem respond_cfg : (respond d s).cfg = s.cfg := rfl
@[simp] theorem respond_mem : (respond d s).mem = s.mem := rfl
@[simp] theorem respond_pending : (respond d s).pending = s.pending := rfl
@[simp] theorem respond_pos : (respond d s).pos = s.pos := rfl
@[simp] theorem respond_responses : (respond d s).responses = s.responses ++ [⟨.ok, d⟩] := rfl
@[simp] theorem respond_resets : (respond d s).resets = s.resets := rfl

end Respond

section Refuse
variable (st : Status) (s : State)

@[simp] theorem refuse_cfg : (refuse st s).cfg = s.cfg := rfl
@[simp] theorem refuse_mem : (refuse st s).mem = s.mem := rfl
@[simp] theorem refuse_pending : (refuse st s).pending = s.pending := rfl
@[simp] theorem refuse_pos : (refuse st s).pos = s.pos := rfl
@[simp] theorem refuse_responses : (refuse st s).responses = s.responses ++ [⟨st, 0#32⟩] := rfl
@[simp] theorem refuse_resets : (refuse st s).resets = s.resets := rfl

end Refuse

section Advance
variable (s : State)

@[simp] theorem advance_cfg : (advance s).cfg = s.cfg := rfl
@[simp] theorem advance_mem : (advance s).mem = s.mem := rfl
@[simp] theorem advance_pending : (advance s).pending = s.pending := rfl
@[simp] theorem advance_pos : (advance s).pos = s.pos + 1 := rfl
@[simp] theorem advance_responses : (advance s).responses = s.responses := rfl
@[simp] theorem advance_resets : (advance s).resets = s.resets := rfl

end Advance

section Present
variable (w : Cmd) (s : State)

@[simp] theorem present_cfg : (present w s).cfg = s.cfg := rfl
@[simp] theorem present_mem : (present w s).mem = s.mem := rfl
@[simp] theorem present_pending : (present w s).pending = .command w :: s.pending.tail := rfl
@[simp] theorem present_pos : (present w s).pos = s.pos := rfl
@[simp] theorem present_responses : (present w s).responses = s.responses := rfl
@[simp] theorem present_resets : (present w s).resets = s.resets := rfl

end Present

section Reset
variable (c : Cfg) (epoch : Nat) (pending : List HostEvent) (s : State)

@[simp] theorem afterReset_cfg : (State.afterReset c epoch pending).cfg = c := rfl
@[simp] theorem afterReset_mem : (State.afterReset c epoch pending).mem = Memory.afterReset c epoch := rfl
@[simp] theorem afterReset_pending : (State.afterReset c epoch pending).pending = pending := rfl
@[simp] theorem afterReset_pos : (State.afterReset c epoch pending).pos = 0 := rfl
@[simp] theorem afterReset_responses : (State.afterReset c epoch pending).responses = [] := rfl
@[simp] theorem afterReset_resets : (State.afterReset c epoch pending).resets = epoch := rfl

@[simp] theorem applyReset_cfg : (applyReset s).cfg = s.cfg := rfl
@[simp] theorem applyReset_mem : (applyReset s).mem = Memory.afterReset s.cfg (s.resets + 1) := rfl
@[simp] theorem applyReset_pending : (applyReset s).pending = s.pending := rfl
@[simp] theorem applyReset_pos : (applyReset s).pos = 0 := rfl
@[simp] theorem applyReset_responses : (applyReset s).responses = [] := rfl
@[simp] theorem applyReset_resets : (applyReset s).resets = s.resets + 1 := rfl

end Reset

section BulkUpdates
variable (c : Cfg) (m : Memory)

@[simp] theorem trackAll_cur : (trackAll c m).cur = m.cur := rfl
@[simp] theorem trackAll_hist : (trackAll c m).hist = m.hist := rfl
@[simp] theorem scanAll_cur : (scanAll c m).cur = m.cur := rfl
@[simp] theorem scanAll_peak : (scanAll c m).peak = m.peak := rfl
@[simp] theorem scanAll_flt : (scanAll c m).flt = m.flt := rfl

end BulkUpdates

theorem hasLength_iff {α : Type} (n : Nat) (l : List α) : hasLength n l = true ↔ l.length = n := by
  induction n generalizing l with
  | zero => cases l <;> simp [hasLength]
  | succ n ih =>
    cases l with
    | nil => simp [hasLength]
    | cons a t => simp [hasLength, ih]

theorem sized_iff (c : Cfg) (m : Memory) :
    m.sized c = true ↔ m.cur.length = c.bandwidth ∧ m.peak.length = c.bandwidth ∧ m.flt.length = c.bandwidth ∧
      m.hist.length = c.displayWidth := by
  simp [Memory.sized, hasLength_iff, and_assoc]

theorem wf_iff (c : Cfg) (m : Memory) :
    m.wf c = true ↔ m.sized c = true ∧ (∀ p ∈ m.peak, p ≤ c.spectrumHeight) ∧ (∀ f ∈ m.flt, f ≤ c.maxLevel) ∧
      (∀ w ∈ m.hist, w.toNat ≤ 2 ^ c.waterfallDepth - 1) := by
  simp [Memory.wf, and_assoc]

theorem State.wf_sized {s : State} (h : s.wf = true) : s.mem.sized s.cfg = true := ((wf_iff _ _).mp h).1

end Sys2Proof.Machine
end

