-- ==== Sys2Proof/Laws/Ops.lean ====
section
/-! SUPPORT. For each shared operation, one lemma that says everything it can do. -/

namespace Sys2Proof.Machine

open Sys2Proof

/-- An element exists exactly below the count of its array. -/
theorem memRead_isSome (m : Memory) (sp : Space) (i : Nat) : (memRead m sp i).isSome = true ↔ i < m.count sp := by
  cases sp <;> simp [memRead, Memory.count]

/-- A sized memory has as many elements in a space as the space's bound (R31). -/
theorem sized_count {c : Cfg} {m : Memory} (h : m.sized c = true) (sp : Space) : m.count sp = spaceBound c sp := by
  obtain ⟨h1, h2, h3, h4⟩ := (sized_iff c m).mp h
  cases sp <;> assumption

/-- In a sized memory every element below the bound can be read (R31). -/
theorem memRead_of_sized {c : Cfg} {m : Memory} (h : m.sized c = true) {sp : Space} {i : Nat}
    (hi : i < spaceBound c sp) : ∃ v, memRead m sp i = some v := by
  apply Option.isSome_iff_exists.mp
  rwa [memRead_isSome, sized_count h]

/-- Writing succeeds exactly on an element that exists. -/
theorem memWrite_isSome (m : Memory) (sp : Space) (i v : Nat) :
    (memWrite m sp i v).isSome = true ↔ i < m.count sp := by
  unfold memWrite
  split <;> simp_all

/-- A read of the written element gives the value, if the value fits the container. -/
theorem memRead_memWrite_same {m m' : Memory} {sp : Space} {i v : Nat} (h : memWrite m sp i v = some m')
    (hc : sp = .cur → v < 2 ^ 8) (hh : sp = .hist → v < 2 ^ 32) : memRead m' sp i = some v := by
  unfold memWrite at h
  split at h
  · next hi =>
    cases h
    cases sp <;> simp_all [memRead, Memory.count, Nat.mod_eq_of_lt]
  · cases h

/-- Every other element reads as before. -/
theorem memRead_memWrite_other {m m' : Memory} {sp sp' : Space} {i j v : Nat} (h : memWrite m sp i v = some m')
    (hne : ¬(sp' = sp ∧ j = i)) : memRead m' sp' j = memRead m sp' j := by
  unfold memWrite at h
  split at h
  · cases h
    cases sp <;> cases sp' <;> simp_all [memRead, eq_comm]
  · cases h

/-- Writing an element keeps the size of every array. -/
theorem memWrite_sized {c : Cfg} {m m' : Memory} {sp : Space} {i v : Nat} (h : memWrite m sp i v = some m') :
    m'.sized c = m.sized c := by
  rw [Bool.eq_iff_iff, sized_iff, sized_iff]
  unfold memWrite at h
  split at h
  · cases h
    cases sp <;> simp
  · cases h

/-- What a read command can do: refuse an index outside its space, or answer with the element and change nothing
else. -/
theorem readElement_cases {sp : Space} {idx : Byte} {s t : State} (h : readElement sp idx s = .next t) :
    (spaceBound s.cfg sp ≤ idx.toNat ∧ t = refuse .eBadIdx s) ∨
      ∃ v, idx.toNat < spaceBound s.cfg sp ∧ memRead s.mem sp idx.toNat = some v ∧ t = respond (zext32 v) s := by
  unfold readElement at h
  split at h
  · next hb => exact .inl ⟨hb, by cases h; rfl⟩
  · next hb =>
    split at h
    · next v hv => exact .inr ⟨v, Nat.lt_of_not_le hb, hv, by cases h; rfl⟩
    · cases h

/-- What WRS's operation can do: refuse an index outside its space, or replace the element and answer 0. -/
theorem writeElement_cases {sp : Space} {idx : Byte} {v : Nat} {s t : State} (h : writeElement sp idx v s = .next t) :
    (spaceBound s.cfg sp ≤ idx.toNat ∧ t = refuse .eBadIdx s) ∨
      ∃ m, idx.toNat < spaceBound s.cfg sp ∧ memWrite s.mem sp idx.toNat v = some m ∧
        t = respond 0#32 { s with mem := m } := by
  unfold writeElement at h
  split at h
  · next hb => exact .inl ⟨hb, by cases h; rfl⟩
  · next hb =>
    split at h
    · next m hm => exact .inr ⟨m, Nat.lt_of_not_le hb, hm, by cases h; rfl⟩
    · cases h

/-- What a bulk command can do: on sized arrays, update them and answer 0. -/
theorem updateArrays_cases {f : Cfg → Memory → Memory} {s t : State} (h : updateArrays f s = .next t) :
    s.mem.sized s.cfg = true ∧ t = respond 0#32 { s with mem := f s.cfg s.mem } := by
  unfold updateArrays at h
  split at h
  · next hs => exact ⟨hs, by cases h; rfl⟩
  · cases h

/-- What the transaction can do: refuse the word, or run the command it stands for. -/
theorem transact_cases (w : Cmd) (s : State) :
    (∃ st, decode s.cfg w = .refused st ∧ transact w s = .next (refuse st s)) ∨
      ∃ i, decode s.cfg w = .accepted i ∧ transact w s = exec i s := by
  unfold transact
  cases h : decode s.cfg w with
  | accepted i => exact .inr ⟨i, rfl, rfl⟩
  | refused st => exact .inl ⟨st, rfl, rfl⟩

/-- What one move of the host can do. -/
theorem hostMove_cases (s : State) :
    (s.pending = [] ∧ hostMove s = .next s) ∨
      (∃ w rest, s.pending = .command w :: rest ∧ hostMove s = transact w (advance { s with pending := rest })) ∨
      ∃ rest, s.pending = .reset :: rest ∧ hostMove s = .next (applyReset { s with pending := rest }) := by
  unfold hostMove
  split
  · next h => exact .inl ⟨h, rfl⟩
  · next w rest h => exact .inr (.inl ⟨w, rest, h, rfl⟩)
  · next rest h => exact .inr (.inr ⟨rest, h, rfl⟩)

end Sys2Proof.Machine
end

