-- ==== Sys2Proof/Laws/Arrays.lean ====
section
/-! SUPPORT. The element functions of the trackers and the waterfall, the element a bulk update leaves at an index, and
that every memory operation keeps `Memory.wf`. -/

namespace Sys2Proof.Machine

open Sys2Proof

theorem height_le (c : Cfg) (s : Byte) : height c s ≤ c.spectrumHeight := by
  unfold height clamp
  omega

theorem peakStep_le {p h b : Nat} (hp : p ≤ b) (hh : h ≤ b) : peakStep p h ≤ b := by
  unfold peakStep
  split
  · exact hh
  · split <;> omega

theorem fltStep_le (c : Cfg) {f h b : Nat} (hf : f ≤ b) (hh : h * 2 ^ c.fracBits ≤ b) : fltStep c f h ≤ b := by
  unfold fltStep
  split <;> omega

/-- `chmap` stays below BW (R37). -/
theorem chmap_lt (c : Cfg) {x : Nat} (hx : x < c.displayWidth) : chmap c x < c.bandwidth := by
  have h1 := c.ranges.1.1
  have h2 := c.ranges.2.1.1
  unfold chmap
  rw [Nat.div_lt_iff_lt_mul (by omega), Nat.mul_comm c.bandwidth]
  exact Nat.mul_lt_mul_of_pos_right hx (by omega)

theorem histMask_toNat (c : Cfg) : c.histMask.toNat = 2 ^ c.waterfallDepth - 1 := by
  have h := c.ranges.2.2.2.2.2.1.2
  have h2 : 2 ^ c.waterfallDepth ≤ 2 ^ 32 := Nat.pow_le_pow_right (by omega) h
  have h3 : 0 < 2 ^ c.waterfallDepth := Nat.pow_pos (by omega)
  simp only [Params.histMask, BitVec.toNat_ofNat]
  apply Nat.mod_eq_of_lt
  omega

theorem shiftIn_le (c : Cfg) (w : HistWord) (b : BitVec 1) : (shiftIn c w b).toNat ≤ 2 ^ c.waterfallDepth - 1 := by
  unfold shiftIn
  rw [BitVec.toNat_and, histMask_toNat]
  exact Nat.and_le_right

theorem trackAll_peak_getElem? (c : Cfg) (m : Memory) (i : Nat) {a : Byte} {p : Nat} (ha : m.cur[i]? = some a)
    (hp : m.peak[i]? = some p) : (trackAll c m).peak[i]? = some (peakStep p (height c a)) := by
  simp [trackAll, List.getElem?_zipWith, ha, hp]

theorem trackAll_flt_getElem? (c : Cfg) (m : Memory) (i : Nat) {a : Byte} {f : Nat} (ha : m.cur[i]? = some a)
    (hf : m.flt[i]? = some f) : (trackAll c m).flt[i]? = some (fltStep c f (height c a)) := by
  simp [trackAll, List.getElem?_zipWith, ha, hf]

theorem scanAll_hist_getElem? (c : Cfg) (m : Memory) (x : Nat) {w : HistWord} (hw : m.hist[x]? = some w) :
    (scanAll c m).hist[x]? = some (shiftIn c w (scanBit c m x)) := by
  simp [scanAll, hw]

theorem trackAll_sized (c c' : Cfg) {m : Memory} (h : m.sized c' = true) : (trackAll c m).sized c' = true := by
  rw [sized_iff] at h ⊢
  simp [trackAll, h]

theorem scanAll_sized (c c' : Cfg) {m : Memory} (h : m.sized c' = true) : (scanAll c m).sized c' = true := by
  rw [sized_iff] at h ⊢
  simp [scanAll, h]

/-- One frame of the trackers keeps the arrays well formed. -/
theorem trackAll_wf {c : Cfg} {m : Memory} (h : m.wf c = true) : (trackAll c m).wf c = true := by
  obtain ⟨hs, hp, hf, hh⟩ := (wf_iff c m).mp h
  refine (wf_iff c _).mpr ⟨trackAll_sized c c hs, ?_, ?_, hh⟩
  · intro p' hp'
    obtain ⟨i, hi⟩ := List.mem_iff_getElem?.mp hp'
    simp only [trackAll, List.getElem?_zipWith_eq_some] at hi
    obtain ⟨a, p, _, hpi, rfl⟩ := hi
    exact peakStep_le (hp p (List.mem_of_getElem? hpi)) (height_le c a)
  · intro f' hf'
    obtain ⟨i, hi⟩ := List.mem_iff_getElem?.mp hf'
    simp only [trackAll, List.getElem?_zipWith_eq_some] at hi
    obtain ⟨a, f, _, hfi, rfl⟩ := hi
    exact fltStep_le c (hf f (List.mem_of_getElem? hfi)) (Nat.mul_le_mul_right _ (height_le c a))

/-- One scan keeps the arrays well formed. -/
theorem scanAll_wf {c : Cfg} {m : Memory} (h : m.wf c = true) : (scanAll c m).wf c = true := by
  obtain ⟨hs, hp, hf, _⟩ := (wf_iff c m).mp h
  refine (wf_iff c _).mpr ⟨scanAll_sized c c hs, hp, hf, ?_⟩
  intro w hw
  obtain ⟨x, hx⟩ := List.mem_iff_getElem?.mp hw
  simp only [scanAll, List.getElem?_mapIdx, Option.map_eq_some_iff] at hx
  obtain ⟨w', _, rfl⟩ := hx
  exact shiftIn_le c w' _

/-- Writing a value that is in range keeps the arrays well formed. -/
theorem memWrite_wf {c : Cfg} {m m' : Memory} {sp : Space} {i v : Nat} (h : m.wf c = true)
    (hw : memWrite m sp i v = some m') (hp : sp = .peak → v ≤ c.spectrumHeight) (hf : sp = .flt → v ≤ c.maxLevel)
    (hh : sp = .hist → v ≤ 2 ^ c.waterfallDepth - 1) : m'.wf c = true := by
  obtain ⟨hs, h2, h3, h4⟩ := (wf_iff c m).mp h
  rw [wf_iff, memWrite_sized hw]
  refine ⟨hs, ?_⟩
  unfold memWrite at hw
  split at hw
  · cases hw
    cases sp with
    | cur => exact ⟨h2, h3, h4⟩
    | peak => exact ⟨fun p hp' => (List.mem_or_eq_of_mem_set hp').elim (h2 p) (fun e => e ▸ hp rfl), h3, h4⟩
    | flt => exact ⟨h2, fun f hf' => (List.mem_or_eq_of_mem_set hf').elim (h3 f) (fun e => e ▸ hf rfl), h4⟩
    | hist =>
      refine ⟨h2, h3, fun w hw' => (List.mem_or_eq_of_mem_set hw').elim (h4 w) (fun e => ?_)⟩
      subst e
      exact (Nat.mod_le _ _).trans (hh rfl)
  · cases hw

/-- The arrays after reset are well formed. -/
theorem Memory.afterReset_wf (c : Cfg) (epoch : Nat) : (Memory.afterReset c epoch).wf c = true := by
  rw [wf_iff, sized_iff]
  simp [Memory.afterReset]

end Sys2Proof.Machine
end

