-- ==== Sys2Proof/Laws/Decode.lean ====
section
/-! SUPPORT. The fields of a command word (format C), and what decoding can answer. -/

namespace Sys2Proof

@[simp] theorem opOf_formatC (op : BitVec 4) (idx data : Byte) : opOf (formatC op idx data) = op := by
  apply BitVec.eq_of_getLsbD_eq
  intro i hi
  simp only [opOf, formatC, BitVec.getLsbD_extractLsb', BitVec.getLsbD_append]
  have h1 : ¬(16 + i < 8) := by omega
  have h2 : ¬(16 + i - 8 < 8) := by omega
  have h3 : 16 + i - 8 - 8 = i := by omega
  simp [h1, h2, h3, hi]

@[simp] theorem idxOf_formatC (op : BitVec 4) (idx data : Byte) : idxOf (formatC op idx data) = idx := by
  apply BitVec.eq_of_getLsbD_eq
  intro i hi
  simp only [idxOf, formatC, BitVec.getLsbD_extractLsb', BitVec.getLsbD_append]
  simp [hi]

@[simp] theorem dataOf_formatC (op : BitVec 4) (idx data : Byte) : dataOf (formatC op idx data) = data := by
  apply BitVec.eq_of_getLsbD_eq
  intro i hi
  simp only [dataOf, formatC, BitVec.getLsbD_extractLsb', BitVec.getLsbD_append]
  simp [hi]

/-- A word is its three fields (R46). -/
theorem formatC_fields (w : Cmd) : formatC (opOf w) (idxOf w) (dataOf w) = w := by
  apply BitVec.eq_of_getLsbD_eq
  intro i hi
  simp only [opOf, idxOf, dataOf, formatC, BitVec.getLsbD_extractLsb', BitVec.getLsbD_append]
  by_cases h8 : i < 8
  · simp [h8]
  · by_cases h16 : i - 8 < 8
    · have e : 8 + (i - 8) = i := by omega
      simp [h8, h16, e]
    · have e : 16 + (i - 8 - 8) = i := by omega
      have h4 : i - 8 - 8 < 4 := by omega
      simp [h8, h16, h4, e]

/-- A word is accepted exactly when it selects a command whose index is inside its space. -/
theorem decode_eq_accepted_iff (c : Cfg) (w : Cmd) (i : Instr) :
    decode c w = .accepted i ↔ select w = some i ∧ i.wellFormed c = true := by
  unfold decode
  cases h : select w with
  | none => simp
  | some j =>
    by_cases hj : j.wellFormed c = true
    · simp only [if_pos hj, Decoded.accepted.injEq, Option.some.injEq]
      exact ⟨fun e => ⟨e, e ▸ hj⟩, fun e => e.1⟩
    · simp only [if_neg hj, Option.some.injEq, reduceCtorEq, false_iff, not_and]
      exact fun e => e ▸ hj

/-- Decoding refuses with E_BADOP or E_BADIDX, never with OK. -/
theorem decode_refused_ne_ok {c : Cfg} {w : Cmd} {st : Status} (h : decode c w = .refused st) : st ≠ .ok := by
  rintro rfl
  unfold decode at h
  split at h
  · cases h
  · split at h <;> cases h

end Sys2Proof
end

