-- ==== Sys2Proof/Laws/PerInstr.lean ====
section
/-! SUPPORT. Facts about the commands as syntax, one lemma per constructor. -/

namespace Sys2Proof

namespace Laws

/-- The word of a command selects that command in the opcode map (R48). -/
def SelectEncode.Statement (i : Instr) : Prop := select (encode i) = some i

theorem SelectEncode.wrs (ch val : Byte) : SelectEncode.Statement (.wrs ch val) := by
  simp [SelectEncode.Statement, select, encode]

theorem SelectEncode.rds (ch : Byte) : SelectEncode.Statement (.rds ch) := by
  simp [SelectEncode.Statement, select, encode]

theorem SelectEncode.trk : SelectEncode.Statement .trk := by simp [SelectEncode.Statement, select, encode]

theorem SelectEncode.rdp (ch : Byte) : SelectEncode.Statement (.rdp ch) := by
  simp [SelectEncode.Statement, select, encode]

theorem SelectEncode.rdf (ch : Byte) : SelectEncode.Statement (.rdf ch) := by
  simp [SelectEncode.Statement, select, encode]

theorem SelectEncode.wfu : SelectEncode.Statement .wfu := by simp [SelectEncode.Statement, select, encode]

theorem SelectEncode.rdw (col : Byte) : SelectEncode.Statement (.rdw col) := by
  simp [SelectEncode.Statement, select, encode]

end Laws

end Sys2Proof
end

