-- ==== Sys2Proof/Laws/Port.lean ====
section
/-! SUPPORT. What the ports show in each phase, and what one clock edge can do. -/

namespace Sys2Proof.Machine

open Sys2Proof

theorem portOut_idle {p : Port} (h : p.phase = .idle) :
    portOut false p = ⟨true, false, Config.idleStatus p.cycle, Config.idleData p.cycle⟩ := by
  simp [portOut, h]

theorem portOut_busy {p : Port} {k : Nat} {w : Cmd} (h : p.phase = .busy k w) :
    portOut false p = ⟨false, false, Config.idleStatus p.cycle, Config.idleData p.cycle⟩ := by
  simp [portOut, h]

theorem portOut_responding {p : Port} {r : Response} (h : p.phase = .responding)
    (hr : p.block.responses.getLast? = some r) : portOut false p = ⟨false, true, statusCode r.status, r.data⟩ := by
  simp [portOut, h, hr]

theorem clockEdge_reset {i : PortIn} (h : i.rst = true) (p : Port) :
    clockEdge i p = .next ⟨applyReset p.block, .idle, p.cycle + 1⟩ := by
  simp [clockEdge, h]

theorem carry_wait (k : Nat) (w : Cmd) (p : Port) :
    carry (k + 1) w p = .next ⟨p.block, .busy k w, p.cycle + 1⟩ := rfl

theorem carry_complete {w : Cmd} {p : Port} {b : State} (hb : transact w (advance p.block) = .next b) :
    carry 0 w p = .next ⟨b, .responding, p.cycle + 1⟩ := by
  simp [carry, hb]

/-- What a command in flight can do at an edge: wait, or take effect. -/
theorem carry_cases {left : Nat} {w : Cmd} {p q : Port} (h : carry left w p = .next q) :
    (∃ k, left = k + 1 ∧ q = ⟨p.block, .busy k w, p.cycle + 1⟩) ∨
      ∃ b, left = 0 ∧ transact w (advance p.block) = .next b ∧ q = ⟨b, .responding, p.cycle + 1⟩ := by
  cases left with
  | succ k => exact .inl ⟨k, rfl, by cases h; rfl⟩
  | zero =>
    simp only [carry] at h
    split at h
    · next b hb => exact .inr ⟨b, rfl, hb, by cases h; rfl⟩
    · cases h
    · cases h

theorem clockEdge_issue {i : PortIn} {p : Port} (h : i.rst = false) (hv : i.cmdValid = true)
    (hp : p.phase = .idle) : clockEdge i p = carry (Config.latency (opOf i.cmd)) i.cmd p := by
  simp [clockEdge, h, hv, hp]

theorem clockEdge_idle {i : PortIn} {p : Port} (h : i.rst = false) (hv : i.cmdValid = false)
    (hp : p.phase = .idle) : clockEdge i p = .next { p with cycle := p.cycle + 1 } := by
  simp [clockEdge, h, hv, hp]

theorem clockEdge_busy {i : PortIn} {p : Port} {left : Nat} {w : Cmd} (h : i.rst = false)
    (hp : p.phase = .busy left w) : clockEdge i p = carry left w p := by
  simp [clockEdge, h, hp]

theorem clockEdge_responded {i : PortIn} {p : Port} (h : i.rst = false) (hp : p.phase = .responding) :
    clockEdge i p = .next ⟨p.block, .idle, p.cycle + 1⟩ := by
  simp [clockEdge, h, hp]

end Sys2Proof.Machine
end

