-- ==== Sys2Proof/Tests/Slice0.lean ====
section
/-! SUPPORT. Tests. Expected values are those of spec/95_test_vectors.md and of the examples in the rules; a test
names its vector. The `witness_` theorems show states and operands that meet the hypotheses of the obligation they
name, at the boundary values of its clauses. -/

namespace Sys2Proof.Tests

open Sys2Proof Sys2Proof.Machine

/-- The small configuration of program P3. -/
def tiny : Cfg where
  bandwidth := 4
  displayWidth := 8
  spectrumHeight := 32
  heightBasis := 95
  waterfallFloor := 88
  waterfallDepth := 4
  fracBits := 1
  stepQ := 1
  isLegal := by decide

/-- FB = 2, STEPQ = 3 (step 0.75), with HB = 255, SH = 127, WF = 256 and WD = 1: section 4 of the vectors. -/
def odd : Cfg where
  bandwidth := 8
  displayWidth := 4
  spectrumHeight := 127
  heightBasis := 255
  waterfallFloor := 256
  waterfallDepth := 1
  fracBits := 2
  stepQ := 3
  isLegal := by decide

/-- A machine with the given arrays and host moves. -/
def machineOf (m : Memory) (pending : List HostEvent) : State :=
  { cfg := tiny, mem := m, pending := pending, pos := 0, responses := [], resets := 0 }

/-- P3 after frame 2, with the samples of frame 3 written. -/
def mem3 : Memory where
  cur := [70, 60, 255, 64]
  peak := [15, 14, 24, 32]
  flt := [30, 29, 49, 64]
  hist := [1, 1, 2, 2, 3, 3, 1, 1]

/-- The start state of T-COM. -/
def memCom : Memory where
  cur := [90, 80, 70, 95]
  peak := [3, 30, 25, 0]
  flt := [10, 60, 50, 7]
  hist := [1, 2, 3, 4, 5, 6, 7, 8]

/-- The machine that holds them, with nothing left to do. -/
def s3 : State := machineOf mem3 []

/-- A circular memory that holds the history of `mem3` with its pointer at row 1. -/
def ring3 : Ring where
  rows := [[1, 1, 0, 0, 1, 1, 1, 1], [0, 0, 0, 0, 0, 0, 0, 0], [0, 0, 0, 0, 0, 0, 0, 0], [0, 0, 1, 1, 1, 1, 0, 0]]
  ptr := 1

/-- The arrays after a command. -/
def arrays : Outcome → Option Memory
  | .next t => some t.mem
  | .fault _ => none
  | .refused _ => none

/-- The responses after a command. -/
def answers : Outcome → Option (List Response)
  | .next t => some t.responses
  | .fault _ => none
  | .refused _ => none

/-! ### Configuration -/

theorem test_build_refuses_out_of_range : Cfg.build { Params.observed with bandwidth := 257 } 1 2 = none := by decide
theorem test_build_refuses_inexact_step : Cfg.build Params.observed 1 3 = none := by decide
theorem test_build_this_hardware : Cfg.build Params.observed 1 2 = some Cfg.thisHardware := by decide

/-! ### WellFormed smoke: each check with a term it refuses, beside the nearest it takes (R97) -/

theorem test_wellFormed_wrs : ((Instr.wrs 88 0).wellFormed Cfg.thisHardware, (Instr.wrs 87 0).wellFormed Cfg.thisHardware)
    = (false, true) := by decide
theorem test_wellFormed_rds : ((Instr.rds 88).wellFormed Cfg.thisHardware, (Instr.rds 87).wellFormed Cfg.thisHardware)
    = (false, true) := by decide
theorem test_wellFormed_rdp : ((Instr.rdp 88).wellFormed Cfg.thisHardware, (Instr.rdp 87).wellFormed Cfg.thisHardware)
    = (false, true) := by decide
theorem test_wellFormed_rdf : ((Instr.rdf 88).wellFormed Cfg.thisHardware, (Instr.rdf 87).wellFormed Cfg.thisHardware)
    = (false, true) := by decide
theorem test_wellFormed_rdw : ((Instr.rdw 128).wellFormed Cfg.thisHardware, (Instr.rdw 127).wellFormed Cfg.thisHardware)
    = (false, true) := by decide

/-! ### Decoding: words written out bit by bit from the `encoding` strings of the opcode table -/

theorem test_decode_wrs : decode Cfg.thisHardware 0b0001_00000101_01011010#20 = .accepted (.wrs 5 90) := by decide
theorem test_decode_rds : decode Cfg.thisHardware 0b0010_00000101_00000000#20 = .accepted (.rds 5) := by decide
theorem test_decode_trk : decode Cfg.thisHardware 0b0011_00000000_00000000#20 = .accepted .trk := by decide
theorem test_decode_rdp : decode Cfg.thisHardware 0b0100_00000101_00000000#20 = .accepted (.rdp 5) := by decide
theorem test_decode_rdf : decode Cfg.thisHardware 0b0101_00000101_00000000#20 = .accepted (.rdf 5) := by decide
theorem test_decode_wfu : decode Cfg.thisHardware 0b0110_00000000_00000000#20 = .accepted .wfu := by decide
theorem test_decode_rdw : decode Cfg.thisHardware 0b0111_01111111_00000000#20 = .accepted (.rdw 127) := by decide
/-- T-REF: RDP's bound is not RDW's. -/
theorem test_decode_bounds : (decode Cfg.thisHardware 0x46400#20, decode Cfg.thisHardware 0x76400#20)
    = (.refused .eBadIdx, .accepted (.rdw 100)) := by decide
/-- Section 4: the bounds follow the configuration. -/
theorem test_decode_bounds_tiny : (decode tiny 0x10400#20, decode tiny 0x70800#20)
    = (.refused .eBadIdx, .refused .eBadIdx) := by decide
theorem test_decodeTableWord : (decodeTableWord 24 0x20500, decodeTableWord 24 0x20501, decodeTableWord 24 0x300000)
    = (some (.rds 5), none, none) := by decide

/-! ### The functions of one element -/

/-- T-HGT. -/
theorem test_height : ([0, 1, 62, 63, 64, 65, 80, 87, 88, 93, 94, 95, 96, 127, 128, 254, 255] : List Byte).map
    (height Cfg.thisHardware) = [32, 32, 32, 32, 31, 30, 15, 8, 7, 2, 1, 0, 0, 0, 0, 0, 0] := by decide
/-- Section 4, HB = 255 and SH = 127. -/
theorem test_height_odd : ([0, 128, 129, 255] : List Byte).map (height odd) = [127, 127, 126, 0] := by decide
/-- T-PK. -/
theorem test_peakStep : [(0, 0), (0, 1), (0, 32), (10, 10), (10, 11), (10, 9), (10, 0), (32, 31), (32, 0), (1, 0)].map
    (fun e => peakStep e.1 e.2) = [0, 1, 32, 10, 11, 9, 9, 31, 31, 0] := by decide
/-- T-FL. -/
theorem test_fltStep : [(0, 0), (0, 32), (50, 25), (49, 25), (51, 25), (50, 20), (64, 31), (1, 0), (63, 32)].map
    (fun e => fltStep Cfg.thisHardware e.1 e.2) = [0, 64, 50, 50, 50, 49, 63, 0, 64] := by decide
/-- Section 4, FB = 2 and STEPQ = 3. -/
theorem test_fltStep_odd : [(2, 0), (5, 1), (4, 1), (0, 32)].map (fun e => fltStep odd e.1 e.2)
    = [0, 2, 4, 128] := by decide
/-- T-THR. -/
theorem test_thr : ([0, 1, 86, 87, 88, 89, 95, 128, 255] : List Byte).map (thr Cfg.thisHardware)
    = [1, 1, 1, 1, 0, 0, 0, 0, 0] := by decide
/-- Section 4, WF = 256. -/
theorem test_thr_odd : thr odd 255 = 1 := by decide
/-- T-SHF. -/
theorem test_shiftIn : ([(0, 0), (0, 1), (1, 0), (6, 1), (0x7FFFFFFF, 1), (0xFFFFFFFF, 0), (0xFFFFFFFF, 1),
      (0x80000000, 0), (0x80000000, 1), (0xAAAAAAAA, 1), (0x55555555, 0)] : List (HistWord × BitVec 1)).map
      (fun e => shiftIn Cfg.thisHardware e.1 e.2)
    = [0, 1, 2, 0xD, 0xFFFFFFFF, 0xFFFFFFFE, 0xFFFFFFFF, 0, 1, 0x55555555, 0xAAAAAAAA] := by decide
/-- T-SRC-1 at depth 4, with its continuation, and section 4 at depth 1. -/
theorem test_shiftIn_small : ([0, 1, 1, 0, 1, 1] : List (BitVec 1)).foldl (shiftIn tiny) 0 = 0xB ∧
    shiftIn odd 1 0 = 0 ∧ shiftIn odd 0 1 = 1 := by decide
/-- T-MAP. -/
theorem test_chmap : [0, 1, 2, 3, 4, 5, 15, 16, 63, 64, 126, 127].map (chmap Cfg.thisHardware)
    = [0, 0, 1, 2, 2, 3, 10, 11, 43, 44, 86, 87] := by decide
theorem test_chmap_small : (List.range 8).map (chmap tiny) = [0, 0, 1, 1, 2, 2, 3, 3] ∧
    (List.range 4).map (chmap odd) = [0, 2, 4, 6] := by decide

/-! ### One step of each command -/

/-- P3: `WRS 3, 63` of frame 4 stores its sample and nothing else. -/
theorem test_wrs : arrays (exec (.wrs 3 63) s3) = some { mem3 with cur := [70, 60, 255, 63] } := by decide
/-- Section 4: index 4 does not alias index 0. -/
theorem test_wrs_refused : arrays (exec (.wrs 4 0) s3) = some mem3 ∧
    answers (exec (.wrs 4 0) s3) = some [⟨.eBadIdx, 0⟩] := by decide
theorem test_rds : answers (exec (.rds 2) s3) = some [⟨.ok, 255⟩] := by decide
/-- P3, frame 3: rise, rise, decay, decay. -/
theorem test_trk : arrays (exec .trk s3) = some { mem3 with peak := [25, 32, 23, 31], flt := [50, 64, 48, 63] } := by
  decide
/-- T-COM: a decay of both, an equality of the floating level, a floating decay to 6. -/
theorem test_trk_com : arrays (exec .trk (machineOf memCom []))
    = some { memCom with peak := [5, 29, 25, 0], flt := [10, 59, 50, 6] } := by decide
theorem test_rdp : answers (exec (.rdp 3) s3) = some [⟨.ok, 0x20⟩] := by decide
theorem test_rdf : answers (exec (.rdf 2) s3) = some [⟨.ok, 0x31⟩] := by decide
/-- P3, frame 3. -/
theorem test_wfu : arrays (exec .wfu s3) = some { mem3 with hist := [3, 3, 5, 5, 6, 6, 3, 3] } := by decide
/-- T-COM: the oldest bit of the last column is dropped. -/
theorem test_wfu_com : arrays (exec .wfu (machineOf memCom []))
    = some { memCom with hist := [2, 4, 7, 9, 11, 13, 14, 0] } := by decide
/-- The column space is wider than the channel space. -/
theorem test_rdw : answers (exec (.rdw 7) s3) = some [⟨.ok, 1⟩] ∧ answers (exec (.rdw 8) s3) = some [⟨.eBadIdx, 0⟩] ∧
    answers (exec (.rdp 4) s3) = some [⟨.eBadIdx, 0⟩] := by decide
/-- T-REF: both faults, E_BADOP has priority; nothing changes. -/
theorem test_step_refused : answers (step (machineOf mem3 [.command 0x25801#20])) = some [⟨.eBadOp, 0⟩] ∧
    arrays (step (machineOf mem3 [.command 0x25801#20])) = some mem3 := by decide
/-- R111: reset clears the trackers and the history and makes `cur` unspecified again. -/
theorem test_step_reset : arrays (step (machineOf mem3 [.reset])) = some (Memory.afterReset tiny 1) ∧
    (Memory.afterReset tiny 1).peak = [0, 0, 0, 0] ∧ (Memory.afterReset tiny 1).hist = [0, 0, 0, 0, 0, 0, 0, 0] := by
  refine ⟨rfl, ?_, ?_⟩ <;> decide
/-- A program's first command runs from this hardware's reset state. -/
theorem test_first_command : answers (step (State.reset.withFetchWord 24 0x70500)) = some [⟨.ok, 0⟩] := by decide

/-! ### Assembler -/

/-- R55: decimal and hexadecimal operands, a comment. -/
theorem test_assembleText : assembleText ['W', 'R', 'S', ' ', '5', ',', ' ', '0', 'x', '5', 'A', ' ', '#', 'c']
    = some 0x1055A#20 := by decide
theorem test_assembleText_word : assembleText ['.', 'w', 'o', 'r', 'd', ' ', '0', 'x', '2', '5', '8', '0', '1']
    = some 0x25801#20 := by decide
/-- P3, frame 1. -/
theorem test_frame_words : (expand tiny (.frame [90, 80, 70, 95])).map (fun is => is.map encode)
    = some [0x1005A, 0x10150, 0x10246, 0x1035F, 0x30000, 0x60000] := by decide

/-! ### Witnesses: the hypotheses of the obligations are met -/

theorem witness_PeakStepRisesAtOnceFallsByOne : 10 ≤ 10 ∧ 9 < 10 ∧ 32 ≤ Cfg.thisHardware.spectrumHeight := by decide
theorem witness_FloatStepRisesAtOnceFallsByTheStep : Cfg.thisHardware.stepQ = 1 ∧
    50 ≤ 25 * 2 ^ Cfg.thisHardware.fracBits ∧ 25 * 2 ^ Cfg.thisHardware.fracBits < 51 ∧
    64 ≤ Cfg.thisHardware.maxLevel ∧ 32 ≤ Cfg.thisHardware.spectrumHeight := by decide
theorem witness_StoredLevelsAreTheRealLevels : ∀ h ∈ [0, 15, 32], h ≤ Cfg.thisHardware.spectrumHeight := by decide
theorem witness_HeightIsTheClampedDifference : (63#8).toNat ≤ (64#8).toNat ∧ (94#8).toNat ≤ (95#8).toNat := by decide
theorem witness_ShiftInInsertsAtTheLowEnd : 30 + 1 < Cfg.thisHardware.waterfallDepth ∧ tiny.waterfallDepth ≤ 4 := by
  decide
theorem witness_ColumnMapStaysInsideAndIsMonotonic : 127 < Cfg.thisHardware.displayWidth ∧
    Cfg.thisHardware.bandwidth < Cfg.thisHardware.displayWidth ∧ odd.displayWidth < odd.bandwidth := by decide
theorem witness_ColumnMapOfThisHardware : 111 < 112 ∧ 87 < 88 ∧ (columnsOf 85).length = 2 ∧
    (columnsOf 87).length = 1 := by decide
theorem witness_DecoderAgreesWithTheOpcodeMap : select 0x77F00#20 = some (.rdw 127) ∧
    (⟨"RDW", 0x70000#20, 0xF00FF#20⟩ : OpcodeRow) ∈ opcodeRows ∧
    OpcodeRow.selects ⟨"RDW", 0x70000#20, 0xF00FF#20⟩ 0x77F00#20 = true := by decide
/-- One word for each of the six clauses, in their order, and its neighbour that falls under no refusal. -/
theorem witness_DecodingFollowsItsOrder :
    (opOf 0x80000#20).toNat ∉ [1, 2, 3, 4, 5, 6, 7] ∧
    ((opOf 0x70001#20).toNat ∈ [2, 4, 5, 7] ∧ (dataOf 0x70001#20).toNat ≠ 0) ∧
    ((opOf 0x60100#20).toNat ∈ [3, 6] ∧ (idxOf 0x60100#20).toNat ≠ 0) ∧
    ((opOf 0x15800#20).toNat ∈ [1, 2, 4, 5] ∧ Cfg.thisHardware.bandwidth ≤ (idxOf 0x15800#20).toNat) ∧
    ((opOf 0x78000#20).toNat = 7 ∧ Cfg.thisHardware.displayWidth ≤ (idxOf 0x78000#20).toNat) ∧
    [0x15700#20, 0x25700#20, 0x30000#20, 0x45700#20, 0x55700#20, 0x60000#20, 0x77F00#20].map (decode Cfg.thisHardware) =
      [.accepted (.wrs 87 0), .accepted (.rds 87), .accepted .trk, .accepted (.rdp 87), .accepted (.rdf 87),
        .accepted .wfu, .accepted (.rdw 127)] := by decide
theorem witness_DecodeOfEncodeIsTheCommand : (Instr.rdw 127).wellFormed Cfg.thisHardware = true ∧
    (Instr.rdw 128).wellFormed Cfg.thisHardware = false := by decide
theorem witness_AcceptedWordsAreEncodings : decode Cfg.thisHardware 0x157FF#20 = .accepted (.wrs 87 255) := by decide
theorem witness_AssemblerWordsAreShiftedFields : (assemble (.wrs 255 255)).isSome = true ∧
    assemble (.wrs 256 0) = none ∧ assemble (.wrs 0 256) = none ∧ assemble (.rdw 256) = none ∧
    assemble (.word 0xFFFFF) = some 0xFFFFF#20 := by decide
theorem witness_SweepWritesEveryChannelOnce : expand tiny (.sweep [1, 2, 3, 4])
    = some [.wrs 0 1, .wrs 1 2, .wrs 2 3, .wrs 3 4] := by decide
theorem witness_StepRunsTheDecodedCommand : (machineOf mem3 [.command 0x30000#20]).pending = .command 0x30000#20 :: [] ∧
    decode tiny 0x30000#20 = .accepted .trk := by decide
theorem witness_RefusedWordChangesNothing :
    (machineOf mem3 [.command 0x30001#20, .command 0x60000#20]).pending = .command 0x30001#20 :: [.command 0x60000#20] ∧
    decode tiny 0x30001#20 = .refused .eBadOp ∧ decode tiny 0x60000#20 = .accepted .wfu := by decide
theorem witness_StepWithoutMoveHoldsTheState : s3.pending = [] := by decide
theorem witness_TransactionHasNoOtherInput : ∃ t, step (machineOf mem3 [.command 0x40300#20]) = .next t ∧
    (machineOf mem3 [.command 0x40300#20, .reset]).mem = (machineOf mem3 [.command 0x40300#20]).mem := ⟨_, rfl, rfl⟩
theorem witness_ResponsesCarryTheirData : (machineOf mem3 [.command 0x70700#20]).wf = true ∧
    [0x10300, 0x20300, 0x30000, 0x40300, 0x50300, 0x60000, 0x70700, 0x00000].map (decode tiny) =
    [.accepted (.wrs 3 0), .accepted (.rds 3), .accepted .trk, .accepted (.rdp 3), .accepted (.rdf 3), .accepted .wfu,
      .accepted (.rdw 7), .refused .eBadOp] := by decide
theorem witness_EachArrayHasOneProducer : (∃ t, step (machineOf mem3 [.command 0x10300#20]) = .next t ∧ t.mem.cur ≠ mem3.cur) ∧
    (∃ t, step (machineOf mem3 [.command 0x30000#20]) = .next t ∧ t.mem.peak ≠ mem3.peak) ∧
    (∃ t, step (machineOf mem3 [.command 0x60000#20]) = .next t ∧ t.mem.hist ≠ mem3.hist) ∧
    ∀ rest, (machineOf mem3 [.command 0x10300#20]).pending ≠ .reset :: rest := by
  refine ⟨⟨_, rfl, ?_⟩, ⟨_, rfl, ?_⟩, ⟨_, rfl, ?_⟩, ?_⟩
  · decide
  · decide
  · decide
  · intro rest h
    cases h
theorem witness_WrsStoresOneSample : s3.mem.sized s3.cfg = true ∧ (3#8).toNat < s3.cfg.bandwidth ∧
    s3.cfg.bandwidth ≤ (4#8).toNat := by decide
theorem witness_ReadCommandsReturnTheirElement : s3.wf = true ∧ (7#8).toNat < spaceBound s3.cfg .hist ∧
    spaceBound s3.cfg .hist ≤ (8#8).toNat ∧ (3#8).toNat < spaceBound s3.cfg .peak ∧
    spaceBound s3.cfg .peak ≤ (4#8).toNat := by decide
theorem witness_TrkUpdatesEveryChannel : s3.mem.sized s3.cfg = true ∧ s3.mem.cur[3]? = some 64 ∧
    s3.mem.peak[3]? = some 32 ∧ s3.mem.flt[3]? = some 64 := by decide
theorem witness_WfuShiftsEveryColumn : s3.mem.sized s3.cfg = true ∧ 7 < s3.cfg.displayWidth := by decide
theorem witness_WfuShiftInvariant : s3.mem.sized s3.cfg = true ∧ s3.mem.hist[7]? = some 1 ∧
    s3.mem.cur[chmap s3.cfg 7]? = some 64 ∧ 2 + 2 ≤ s3.cfg.waterfallDepth := by decide
/-- Two histories that differ in the oldest bits alone. -/
theorem witness_WfuShiftInvariant_oldest :
    (machineOf { mem3 with hist := [9, 9, 10, 10, 11, 11, 9, 9] } []).mem.sized tiny = true ∧
    ∀ (x : Nat) (w w' : HistWord), mem3.hist[x]? = some w →
      (machineOf { mem3 with hist := [9, 9, 10, 10, 11, 11, 9, 9] } []).mem.hist[x]? = some w' →
      ∀ k, k + 2 ≤ tiny.waterfallDepth → w.getLsbD k = w'.getLsbD k := by
  refine ⟨by decide, ?_⟩
  have key : ∀ x : Fin 8, ∀ k : Fin 3, (mem3.hist.getD x 0).getLsbD k
      = (([9, 9, 10, 10, 11, 11, 9, 9] : List HistWord).getD x 0).getLsbD k := by decide
  intro x w w' hw hw' k hk
  have hx : x < 8 := (List.getElem?_eq_some_iff.mp hw).1
  have h := key ⟨x, hx⟩ ⟨k, by have : k + 2 ≤ 4 := hk; omega⟩
  have e : mem3.hist.getD x 0 = w := by rw [List.getD_eq_getElem?_getD, hw]; rfl
  have e' : ([9, 9, 10, 10, 11, 11, 9, 9] : List HistWord).getD x 0 = w' := by
    rw [List.getD_eq_getElem?_getD]
    exact congrArg (fun o => o.getD 0) hw'
  rw [← e, ← e']
  exact h
theorem witness_PeakLawsHoldAtEveryFrame : s3.mem.sized s3.cfg = true ∧ 3 < s3.cfg.bandwidth ∧
    24 ≤ 24 ∧ height tiny 64 < 32 := by decide
theorem witness_TrackerAndWaterfallCommute : (machineOf memCom []).mem.sized tiny = true := by decide
theorem witness_ReadsAndWritesRepeatBulkCommandsDoNot : isReadCommand (.rdf 3) = true ∧
    (∃ t, exec (.rdf 3) s3 = .next t) ∧ ∃ t, exec (.wrs 3 63) s3 = .next t :=
  ⟨rfl, ⟨_, rfl⟩, ⟨_, rfl⟩⟩
theorem witness_ReadAfterWriteReturnsTheSample : s3.mem.sized s3.cfg = true ∧ (3#8).toNat < s3.cfg.bandwidth := by decide
theorem witness_ResetClearsTrackersAndHistory : (machineOf mem3 [.reset]).pending = .reset :: [] ∧
    (machineOf memCom [.reset]).pending = .reset :: [] := by decide
theorem witness_StepKeepsElementsInRange : (machineOf mem3 [.command 0x30000#20]).wf = true ∧
    ∃ t, step (machineOf mem3 [.command 0x30000#20]) = .next t := ⟨by decide, _, rfl⟩
theorem witness_StepKeepsFloatingAbovePeak : tiny.stepQ = 1 ∧ FloatCoversPeak (machineOf mem3 [.command 0x30000#20]) ∧
    ∃ t, step (machineOf mem3 [.command 0x30000#20]) = .next t := by
  refine ⟨rfl, ?_, _, rfl⟩
  intro i p f hp hf
  have key : ∀ i : Fin 4, mem3.peak.getD i 0 * 2 ^ tiny.fracBits ≤ mem3.flt.getD i 0 := by decide
  have hi : i < 4 := (List.getElem?_eq_some_iff.mp hp).1
  have h := key ⟨i, hi⟩
  simp only [List.getD_eq_getElem?_getD] at h
  rw [show mem3.peak[i]? = some p from hp, show mem3.flt[i]? = some f from hf] at h
  exact h
theorem witness_StepKeepsSharedColumnsEqual : SharedColumnsAgree (machineOf mem3 [.command 0x60000#20]) ∧
    chmap tiny 6 = chmap tiny 7 ∧ ∃ t, step (machineOf mem3 [.command 0x60000#20]) = .next t := by
  refine ⟨?_, by decide, _, rfl⟩
  have key : ∀ x y : Fin 8, chmap tiny x = chmap tiny y → mem3.hist[x.val]? = mem3.hist[y.val]? := by decide
  intro x y hx hy h
  exact key ⟨x, hx⟩ ⟨y, hy⟩ h
theorem witness_WellFormedStateAlwaysSteps : s3.wf = true ∧ (machineOf mem3 [.reset]).wf = true := by decide
theorem witness_ElementsFitTheirWidth : s3.wf = true ∧ memRead s3.mem .flt 3 = some 64 ∧ 3 < spaceBound s3.cfg .flt := by
  decide
theorem witness_QuietChannelSettlesExactly :
    (machineOf mem3 (List.replicate 24 (.command 0x30000#20))).wf = true ∧ tiny.stepQ = 1 ∧
    mem3.cur[2]? = some 255 ∧ mem3.peak[2]? = some 24 ∧ mem3.flt[2]? = some 49 ∧ tiny.heightBasis ≤ (255#8).toNat := by
  decide
theorem witness_FrameUsesItsOwnSweep : (machineOf mem3 (program
      [.wrs 3 63, .wrs 1 95, .wrs 0 95, .wrs 2 95, .wfu, .trk, .rdp 3, .rdw 7])).wf = true ∧
    isFrame tiny [.wrs 3 63, .wrs 1 95, .wrs 0 95, .wrs 2 95, .wfu, .trk, .rdp 3, .rdw 7] := by
  refine ⟨by decide, [.wrs 3 63, .wrs 1 95, .wrs 0 95, .wrs 2 95], [.rdp 3, .rdw 7], ?_, by decide, .inr rfl⟩
  show List.Perm _ _
  decide
theorem witness_FirstFrameForgetsTheResetSamples : expand tiny (.frame [90, 80, 70, 95])
    = some [.wrs 0 90, .wrs 1 80, .wrs 2 70, .wrs 3 95, .trk, .wfu] := by decide
theorem witness_CircularMemoryIsUnobservable :
    s3.wf = true ∧ mem3.sized tiny = true ∧ ring3.sized tiny = true ∧ (7#8).toNat < tiny.displayWidth ∧
    ring3.Holds tiny mem3.hist := by
  refine ⟨by decide, by decide, by decide, by decide, ?_⟩
  have key : ∀ x : Fin 8, ∀ k : Fin 4, (mem3.hist.getD x 0).extractLsb' k 1 = ring3.bit tiny x k := by decide
  intro x w hw k hk
  have hx : x < 8 := (List.getElem?_eq_some_iff.mp hw).1
  have e : mem3.hist.getD x 0 = w := by rw [List.getD_eq_getElem?_getD, hw]; rfl
  rw [← e]
  exact key ⟨x, hx⟩ ⟨k, hk⟩
/-- Four inserted bits for each column, as many as WD; the host's next move is a scan. -/
theorem witness_StepKeepsHistoryTheInsertedBits :
    HistoryHolds (machineOf { mem3 with hist := List.replicate 8 6#32 } [.command 0x60000#20]) (fun _ => [0, 1, 1, 0]) ∧
    ∃ t, step (machineOf { mem3 with hist := List.replicate 8 6#32 } [.command 0x60000#20]) = .next t := by
  refine ⟨?_, _, rfl⟩
  intro x w hw
  have e : w = 6#32 := (List.mem_replicate.mp (List.mem_of_getElem? hw)).2
  subst e
  have key : ∀ k : Fin 4, (6#32).extractLsb' k 1 = ([0, 1, 1, 0] : List (BitVec 1)).getD (4 - 1 - k) 0#1 := by decide
  have high : ∀ k : Fin 32, 4 ≤ k.val → (6#32).getLsbD k = false := by decide
  refine ⟨fun k hk => key ⟨k, hk⟩, fun k hk => ?_⟩
  have hk4 : 4 ≤ k := hk
  by_cases h : k < 32
  · exact high ⟨k, h⟩ hk4
  · exact BitVec.getLsbD_of_ge _ _ (Nat.le_of_not_lt h)
theorem witness_ReadsBetweenUpdatesSeeTheirFrame :
    (machineOf mem3 (program [.rds 3, .rdp 3, .wrs 3 7, .rds 3, .rdf 3, .rdw 7])).wf = true ∧
    ∀ i ∈ [Instr.rds 3, .rdp 3, .wrs 3 7, .rds 3, .rdf 3, .rdw 7], i.wellFormed tiny = true ∧ i ≠ .trk ∧ i ≠ .wfu := by
  decide
theorem witness_PseudoInstructionsExpand : ([90, 80, 70, 95] : List Byte).length = tiny.bandwidth ∧
    expand tiny (.sweep [90, 80, 70]) = none := by decide
theorem witness_PortResetAbandonsTheCommand :
    (⟨true, true, 0x30000#20⟩ : PortIn).rst = true ∧ (⟨s3, .busy 2 0x60000#20, 5⟩ : Port).phase ≠ .idle := by decide
theorem witness_PortAnswersEveryIssuedCommand :
    (Port.reset tiny).phase = .idle ∧ (⟨s3, .idle, 0⟩ : Port).block.wf = true ∧
    (∀ i ∈ List.replicate (Config.latency (opOf 0x30000#20)) (⟨false, true, 0x60000#20⟩ : PortIn), i.rst = false) ∧
    (List.replicate (Config.latency (opOf 0x30000#20)) (⟨false, true, 0x60000#20⟩ : PortIn)).length
      = Config.latency (opOf 0x30000#20) := by
  refine ⟨by decide, by decide, ?_, by simp⟩
  intro i hi
  rw [List.eq_of_mem_replicate hi]
theorem witness_ClockEdgesKeepElementsInRange : (⟨s3, .busy 0 0x60000#20, 0⟩ : Port).block.wf = true := by decide

end Sys2Proof.Tests
end

section
/-! PROOFS. The host's moves, and the step with none left (spec 00_scope R9). -/

namespace Sys2Proof.Machine

open Sys2Proof

/-- With no move left the host does not touch the block (R105). -/
theorem hostMove_of_pending_nil {s : State} (h : s.pending = []) : hostMove s = .next s := by
  simp only [hostMove, h]

/-- Settles O20: a step is one move of the host, and there is none left. -/
theorem stepWithoutMoveHoldsTheState : Obligations.StepWithoutMoveHoldsTheState := by
  intro s hnone
  calc step s = hostMove s := rfl
    _ = .next s := hostMove_of_pending_nil hnone

end Sys2Proof.Machine
end

section
/-! PROOFS. What a completed command does to the arrays (spec 30_encoding R54): the lemmas of the model's layer that
the statements about the state go through. -/

namespace Sys2Proof.Machine

open Sys2Proof

section Arms
variable (idx val : Byte) (s : State)

theorem exec_wrs_eq : exec (.wrs idx val) s = writeElement .cur idx val.toNat s := rfl
theorem exec_rds_eq : exec (.rds idx) s = readElement .cur idx s := rfl
theorem exec_trk_eq : exec .trk s = updateArrays trackAll s := rfl
theorem exec_rdp_eq : exec (.rdp idx) s = readElement .peak idx s := rfl
theorem exec_rdf_eq : exec (.rdf idx) s = readElement .flt idx s := rfl
theorem exec_wfu_eq : exec .wfu s = updateArrays scanAll s := rfl
theorem exec_rdw_eq : exec (.rdw idx) s = readElement .hist idx s := rfl

end Arms

/-- A write to the sample buffer replaces one sample and keeps the other three arrays (R60). -/
theorem memWrite_cur_eq {m m' : Memory} {i v : Nat} (h : memWrite m .cur i v = some m') :
    m' = { m with cur := m.cur.set i (BitVec.ofNat 8 v) } := by
  unfold memWrite at h
  split at h <;> cases h
  rfl

/-- How a completed command takes the arrays `m` to `m'` (R54, R60, R68, R82). `exec_effect` ties it to `exec`. -/
inductive CommandEffect (c : Cfg) (m : Memory) : Instr → Memory → Prop
  /-- A read, and a command whose index is outside its space, change nothing. -/
  | unchanged {i : Instr} (h : isReadCommand i = true ∨ i.wellFormed c = false) : CommandEffect c m i m
  /-- WRS replaces one sample. -/
  | wrs {ch val : Byte} {m' : Memory} (h : memWrite m .cur ch.toNat val.toNat = some m') :
      CommandEffect c m (.wrs ch val) m'
  /-- TRK is one frame of both trackers. -/
  | trk (h : m.sized c = true) : CommandEffect c m .trk (trackAll c m)
  /-- WFU is one scan. -/
  | wfu (h : m.sized c = true) : CommandEffect c m .wfu (scanAll c m)

/-- A read command only answers, whether it finds its element or refuses its index (R34, R99). -/
theorem readElement_effect {i : Instr} (hread : isReadCommand i = true) {sp : Space} {idx : Byte} {s t : State}
    (h : readElement sp idx s = .next t) :
    ∃ r m, t = answer r { s with mem := m } ∧ CommandEffect s.cfg s.mem i m := by
  obtain ⟨_, rfl⟩ | ⟨v, _, _, rfl⟩ := readElement_cases h
  · exact ⟨_, s.mem, rfl, .unchanged (.inl hread)⟩
  · exact ⟨_, s.mem, rfl, .unchanged (.inl hread)⟩

/-- A command that completes gives one response, has its effect on the arrays, and changes nothing else. -/
theorem exec_effect {i : Instr} {s t : State} (h : exec i s = .next t) :
    ∃ r m, t = answer r { s with mem := m } ∧ CommandEffect s.cfg s.mem i m := by
  cases i with
  | wrs ch val =>
    rw [exec_wrs_eq] at h
    obtain ⟨hout, rfl⟩ | ⟨m, _, hm, rfl⟩ := writeElement_cases h
    · exact ⟨_, s.mem, rfl, .unchanged (.inr (decide_eq_false (Nat.not_lt.mpr hout)))⟩
    · exact ⟨_, m, rfl, .wrs hm⟩
  | trk =>
    rw [exec_trk_eq] at h
    obtain ⟨hs, rfl⟩ := updateArrays_cases h
    exact ⟨_, _, rfl, .trk hs⟩
  | wfu =>
    rw [exec_wfu_eq] at h
    obtain ⟨hs, rfl⟩ := updateArrays_cases h
    exact ⟨_, _, rfl, .wfu hs⟩
  | rds ch => exact readElement_effect rfl (exec_rds_eq ch s ▸ h)
  | rdp ch => exact readElement_effect rfl (exec_rdp_eq ch s ▸ h)
  | rdf ch => exact readElement_effect rfl (exec_rdf_eq ch s ▸ h)
  | rdw col => exact readElement_effect rfl (exec_rdw_eq col s ▸ h)

section Effect
variable {c : Cfg} {m m' : Memory} {i : Instr}

/-- Every command keeps the arrays sized and each element in its range (R15). -/
theorem CommandEffect.wf (h : CommandEffect c m i m') (hm : m.wf c = true) : m'.wf c = true := by
  cases h with
  | unchanged => exact hm
  | wrs hw => exact memWrite_wf hm hw nofun nofun nofun
  | trk => exact trackAll_wf hm
  | wfu => exact scanAll_wf hm

/-- Only WRS produces `cur` (R20). -/
theorem CommandEffect.wrs_of_cur_ne (h : CommandEffect c m i m') (hne : m'.cur ≠ m.cur) :
    ∃ ch val, i = .wrs ch val := by
  cases h with
  | unchanged => exact absurd rfl hne
  | wrs => exact ⟨_, _, rfl⟩
  | trk => exact absurd (trackAll_cur c m) hne
  | wfu => exact absurd (scanAll_cur c m) hne

/-- Only TRK produces `peak` and `flt` (R20). -/
theorem CommandEffect.trk_of_levels_ne (h : CommandEffect c m i m') (hne : m'.peak ≠ m.peak ∨ m'.flt ≠ m.flt) :
    i = .trk := by
  cases h with
  | unchanged => simp at hne
  | wrs hw => simp [memWrite_cur_eq hw] at hne
  | trk => rfl
  | wfu => simp at hne

/-- Only WFU produces `hist` (R20). -/
theorem CommandEffect.wfu_of_hist_ne (h : CommandEffect c m i m') (hne : m'.hist ≠ m.hist) : i = .wfu := by
  cases h with
  | unchanged => exact absurd rfl hne
  | wrs hw => simp [memWrite_cur_eq hw] at hne
  | trk => exact absurd (trackAll_hist c m) hne
  | wfu => rfl

end Effect

end Sys2Proof.Machine
end

section
/-! PROOFS. On sized arrays every command completes (spec 20_memory R31, 60_exceptions R95, R100). -/

namespace Sys2Proof.Machine

open Sys2Proof

section Sized
variable {s : State}

theorem readElement_completes (h : s.mem.sized s.cfg = true) (sp : Space) (idx : Byte) :
    ∃ t, readElement sp idx s = .next t := by
  unfold readElement
  split
  · exact ⟨_, rfl⟩
  · next hin =>
    obtain ⟨v, hv⟩ := memRead_of_sized h (Nat.lt_of_not_le hin)
    exact ⟨respond (zext32 v) s, by rw [hv]⟩

theorem writeElement_completes (h : s.mem.sized s.cfg = true) (sp : Space) (idx : Byte) (v : Nat) :
    ∃ t, writeElement sp idx v s = .next t := by
  unfold writeElement
  split
  · exact ⟨_, rfl⟩
  · next hin =>
    have hlt : idx.toNat < s.mem.count sp := by rw [sized_count h]; exact Nat.lt_of_not_le hin
    obtain ⟨m, hm⟩ := Option.isSome_iff_exists.mp ((memWrite_isSome s.mem sp idx.toNat v).mpr hlt)
    exact ⟨respond 0#32 { s with mem := m }, by rw [hm]⟩

theorem updateArrays_completes (h : s.mem.sized s.cfg = true) (f : Cfg → Memory → Memory) :
    ∃ t, updateArrays f s = .next t :=
  ⟨_, if_pos h⟩

theorem exec_completes (h : s.mem.sized s.cfg = true) (i : Instr) : ∃ t, exec i s = .next t := by
  cases i with
  | wrs ch val => exact exec_wrs_eq ch val s ▸ writeElement_completes h .cur ch val.toNat
  | rds ch => exact exec_rds_eq ch s ▸ readElement_completes h .cur ch
  | trk => exact exec_trk_eq s ▸ updateArrays_completes h trackAll
  | rdp ch => exact exec_rdp_eq ch s ▸ readElement_completes h .peak ch
  | rdf ch => exact exec_rdf_eq ch s ▸ readElement_completes h .flt ch
  | wfu => exact exec_wfu_eq s ▸ updateArrays_completes h scanAll
  | rdw col => exact exec_rdw_eq col s ▸ readElement_completes h .hist col

theorem transact_completes (h : s.mem.sized s.cfg = true) (w : Cmd) : ∃ t, transact w s = .next t := by
  obtain ⟨st, _, hst⟩ | ⟨i, _, hi⟩ := transact_cases w s
  · exact ⟨_, hst⟩
  · rw [hi]
    exact exec_completes h i

end Sized

end Sys2Proof.Machine
end

section
/-! PROOFS. Ranges and sizes (spec 10_state R15): kept by every transaction, every step and every clock edge. -/

namespace Sys2Proof.Machine

open Sys2Proof

/-- A reset leaves well-formed arrays, whatever they were before (R111). -/
theorem applyReset_wf (s : State) : (applyReset s).wf = true := Memory.afterReset_wf s.cfg (s.resets + 1)

/-- Any of the 2^20 words, accepted or refused, keeps the state well formed (R15, R99). -/
theorem transact_keeps_wf {w : Cmd} {s t : State} (hwf : s.wf = true) (h : transact w s = .next t) : t.wf = true := by
  obtain ⟨st, _, hst⟩ | ⟨i, _, hi⟩ := transact_cases w s
  · rw [hst] at h
    cases h
    exact hwf
  · rw [hi] at h
    obtain ⟨r, m, rfl, heff⟩ := exec_effect h
    exact heff.wf hwf

/-- Settles O36, by cases on the host's move: none, a word, or a reset. -/
theorem stepKeepsElementsInRange : Obligations.StepKeepsElementsInRange := by
  intro s t hwf hstep
  change hostMove s = .next t at hstep
  obtain ⟨_, hmove⟩ | ⟨w, rest, _, hmove⟩ | ⟨rest, _, hmove⟩ := hostMove_cases s
  · rw [hmove] at hstep
    cases hstep
    exact hwf
  · rw [hmove] at hstep
    exact transact_keeps_wf (s := advance { s with pending := rest }) hwf hstep
  · rw [hmove] at hstep
    cases hstep
    exact applyReset_wf _

/-- A command in flight either waits on the same block or takes effect as a whole; both leave a well-formed block. -/
theorem carry_keeps_wf {p : Port} (hwf : p.block.wf = true) (left : Nat) (w : Cmd) :
    ∃ q, carry left w p = .next q ∧ q.block.wf = true := by
  cases left with
  | succ k => exact ⟨_, carry_wait k w p, hwf⟩
  | zero =>
    obtain ⟨b, hb⟩ := transact_completes (s := advance p.block) (State.wf_sized hwf) w
    exact ⟨_, carry_complete hb, transact_keeps_wf (s := advance p.block) hwf hb⟩

/-- Settles O48, by cases on `rst` and on the phase of the port. -/
theorem clockEdgesKeepElementsInRange : Obligations.ClockEdgesKeepElementsInRange := by
  intro i p hwf
  cases hrst : i.rst with
  | true => exact ⟨_, clockEdge_reset hrst p, applyReset_wf p.block⟩
  | false =>
    cases hphase : p.phase with
    | idle =>
      cases hvalid : i.cmdValid with
      | true =>
        rw [clockEdge_issue hrst hvalid hphase]
        exact carry_keeps_wf hwf _ i.cmd
      | false => exact ⟨_, clockEdge_idle hrst hvalid hphase, hwf⟩
    | busy left w =>
      rw [clockEdge_busy hrst hphase]
      exact carry_keeps_wf hwf left w
    | responding => exact ⟨_, clockEdge_responded hrst hphase, hwf⟩

end Sys2Proof.Machine
end

section
/-! PROOFS. The one producer of each array (spec 10_state R20). -/

namespace Sys2Proof.Machine

open Sys2Proof

/-- Settles O23. Without a move, or with a refused word, no array changes; an accepted word has its command's effect. -/
theorem eachArrayHasOneProducer : Obligations.EachArrayHasOneProducer := by
  intro s t hstep hnoReset
  change hostMove s = .next t at hstep
  obtain ⟨_, hmove⟩ | ⟨w, rest, hpending, hmove⟩ | ⟨rest, hpending, _⟩ := hostMove_cases s
  · rw [hmove] at hstep
    cases hstep
    simp
  · rw [hmove] at hstep
    obtain ⟨st, _, hst⟩ | ⟨i, hdecode, hi⟩ := transact_cases w (advance { s with pending := rest })
    · rw [hst] at hstep
      cases hstep
      simp
    · rw [hi] at hstep
      obtain ⟨r, m, rfl, heff⟩ := exec_effect hstep
      refine ⟨fun hcur => ?_, fun hlevels => ?_, fun hhist => ?_, rfl, rfl⟩
      · obtain ⟨ch, val, rfl⟩ := heff.wrs_of_cur_ne hcur
        exact ⟨w, rest, ch, val, hpending, hdecode⟩
      · obtain rfl := heff.trk_of_levels_ne hlevels
        exact ⟨w, rest, hpending, hdecode⟩
      · obtain rfl := heff.wfu_of_hist_ne hhist
        exact ⟨w, rest, hpending, hdecode⟩
  · exact absurd hpending (hnoReset rest)

end Sys2Proof.Machine
end

section
/-! PROOFS. The state right after reset (spec 10_state R21): its elements, and the invariants it establishes. -/

namespace Sys2Proof.Machine

open Sys2Proof

section Elements
variable (c : Cfg) (epoch : Nat)

/-- Every sample is the free value of its channel and reset (R21). -/
theorem afterReset_cur_getElem? {i : Nat} (hi : i < c.bandwidth) :
    (Memory.afterReset c epoch).cur[i]? = some (Config.curReset epoch i) := by
  simp [Memory.afterReset, hi]

theorem afterReset_cur_length : (Memory.afterReset c epoch).cur.length = c.bandwidth := by
  simp [Memory.afterReset]

@[simp] theorem afterReset_peak : (Memory.afterReset c epoch).peak = List.replicate c.bandwidth 0 := rfl
@[simp] theorem afterReset_flt : (Memory.afterReset c epoch).flt = List.replicate c.bandwidth 0 := rfl
@[simp] theorem afterReset_hist : (Memory.afterReset c epoch).hist = List.replicate c.displayWidth 0#32 := rfl

end Elements

/-- Every peak is 0 after reset, so no floating level is below it (R72). -/
theorem afterReset_floatCoversPeak (c : Cfg) (epoch : Nat) (pending : List HostEvent) :
    FloatCoversPeak (State.afterReset c epoch pending) := by
  intro i p f hp _
  have hp0 : p = 0 := List.eq_of_mem_replicate (List.mem_of_getElem? hp)
  simp [hp0]

/-- Every history word is 0 after reset, so all columns agree (R88). -/
theorem afterReset_sharedColumnsAgree (c : Cfg) (epoch : Nat) (pending : List HostEvent) :
    SharedColumnsAgree (State.afterReset c epoch pending) := by
  intro x y hx hy _
  have zero {z : Nat} (hz : z < c.displayWidth) : (List.replicate c.displayWidth 0#32)[z]? = some 0#32 :=
    List.getElem?_replicate_of_lt hz
  exact (zero hx).trans (zero hy).symm

/-- Settles O35. -/
theorem resetEstablishesTheInvariants : Obligations.ResetEstablishesTheInvariants := by
  intro c epoch pending
  exact ⟨Memory.afterReset_wf c epoch, afterReset_floatCoversPeak c epoch pending,
    afterReset_sharedColumnsAgree c epoch pending⟩

/-- The decay step of this hardware is the 0.5 of R4. -/
theorem thisHardware_decayStep : Cfg.thisHardware.decayStep = 1 / 2 := by
  norm_num [Params.decayStep, Cfg.thisHardware, Params.observed]

/-- The two derived widths of this hardware (R7): 32 needs 6 bits, SHQ = 64 needs 7. -/
theorem thisHardware_widths :
    Cfg.thisHardware.peakWidth = 6 ∧ Cfg.thisHardware.levelWidth = 7 ∧ Cfg.thisHardware.maxLevel = 64 := by
  decide

/-- Settles O34: the arrays are those after a reset of any configuration, at the parameters of this hardware. -/
theorem powerUpStateOfThisHardware : Obligations.PowerUpStateOfThisHardware := by
  obtain ⟨hpeakWidth, hlevelWidth, hmaxLevel⟩ := thisHardware_widths
  exact ⟨afterReset_peak Cfg.thisHardware 0, afterReset_flt Cfg.thisHardware 0, afterReset_hist Cfg.thisHardware 0,
    afterReset_cur_length Cfg.thisHardware 0, fun _ hi => afterReset_cur_getElem? Cfg.thisHardware 0 hi,
    rfl, rfl, rfl, rfl, rfl, rfl, rfl, thisHardware_decayStep, hpeakWidth, hlevelWidth, hmaxLevel⟩

end Sys2Proof.Machine
end

section
/-! PROOFS. The column-to-channel map (spec 20_memory R36, R37, R42). -/

namespace Sys2Proof.Machine

open Sys2Proof

/-- The map is non-decreasing (R37). -/
theorem chmap_le_chmap (c : Cfg) {x y : Nat} (h : x ≤ y) : chmap c x ≤ chmap c y :=
  Nat.div_le_div_right (Nat.mul_le_mul_right _ h)

/-- The first column whose channel is at least `i`: `i * DW / BW`, rounded up. `firstColumn_le_iff` ties it to
`chmap`. -/
def firstColumn (c : Cfg) (i : Nat) : Nat := (i * c.displayWidth + (c.bandwidth - 1)) / c.bandwidth

theorem firstColumn_le_iff (c : Cfg) (i x : Nat) : firstColumn c i ≤ x ↔ i ≤ chmap c x := by
  obtain ⟨⟨hbw, _⟩, ⟨hdw, _⟩, _⟩ := c.ranges
  calc firstColumn c i ≤ x
      ↔ i * c.displayWidth + (c.bandwidth - 1) < (x + 1) * c.bandwidth := by
        rw [firstColumn, ← Nat.lt_succ_iff, Nat.div_lt_iff_lt_mul hbw]
    _ ↔ i * c.displayWidth ≤ x * c.bandwidth := by rw [Nat.succ_mul]; omega
    _ ↔ i ≤ chmap c x := (Nat.le_div_iff_mul_le hdw).symm

/-- The columns of one channel are an interval. -/
theorem chmap_eq_iff (c : Cfg) (i x : Nat) : chmap c x = i ↔ firstColumn c i ≤ x ∧ x < firstColumn c (i + 1) := by
  rw [← Nat.not_le, firstColumn_le_iff, firstColumn_le_iff]
  omega

section Sharing
variable {c : Cfg}

/-- Where no two adjacent columns share a channel, the channel is at least the column. -/
theorem le_chmap_of_adjacent_ne (hne : ∀ x, x + 1 < c.displayWidth → chmap c x ≠ chmap c (x + 1)) {x : Nat}
    (hx : x < c.displayWidth) : x ≤ chmap c x := by
  induction x with
  | zero => exact Nat.zero_le _
  | succ x ih =>
    have hprev : x ≤ chmap c x := ih (Nat.lt_of_succ_lt hx)
    have hstep : chmap c x < chmap c (x + 1) := lt_of_le_of_ne (chmap_le_chmap c (Nat.le_succ x)) (hne x hx)
    exact Nat.lt_of_le_of_lt hprev hstep

/-- With more columns than channels two adjacent columns share one (R37): else the last column would need a channel
number of at least BW. -/
theorem exists_adjacent_share (h : c.bandwidth < c.displayWidth) :
    ∃ x, x + 1 < c.displayWidth ∧ chmap c x = chmap c (x + 1) := by
  by_contra hnone
  push Not at hnone
  have hlast : c.bandwidth ≤ chmap c c.bandwidth := le_chmap_of_adjacent_ne hnone h
  exact absurd (chmap_lt c h) (Nat.not_lt.mpr hlast)

/-- With fewer columns than channels some channel serves none (R37): DW columns take at most DW channels. -/
theorem exists_unused_channel (h : c.displayWidth < c.bandwidth) :
    ∃ i, i < c.bandwidth ∧ ∀ x, x < c.displayWidth → chmap c x ≠ i := by
  have hcard : ((Finset.range c.displayWidth).image (chmap c)).card < (Finset.range c.bandwidth).card := by
    calc ((Finset.range c.displayWidth).image (chmap c)).card
        ≤ (Finset.range c.displayWidth).card := Finset.card_image_le
      _ < (Finset.range c.bandwidth).card := by simpa using h
  obtain ⟨i, hi, hunused⟩ := Finset.exists_mem_notMem_of_card_lt_card hcard
  exact ⟨i, Finset.mem_range.mp hi, fun x hx heq =>
    hunused (Finset.mem_image.mpr ⟨x, Finset.mem_range.mpr hx, heq⟩)⟩

end Sharing

/-! #### This hardware: 128 columns over 88 channels -/

/-- 88 over 128 is 11 over 16. -/
theorem chmap_thisHardware (x : Nat) : chmap Cfg.thisHardware x = x * 11 / 16 := by
  change x * 88 / 128 = x * 11 / 16
  omega

theorem firstColumn_thisHardware (i : Nat) : firstColumn Cfg.thisHardware i = (16 * i + 10) / 11 := by
  change (i * 128 + 87) / 88 = (16 * i + 10) / 11
  omega

/-- The columns of a channel run from its first column to before that of the next channel. -/
theorem columnsOf_eq_Ico {i : Nat} (hi : i < 88) :
    columnsOf i = List.Ico (firstColumn Cfg.thisHardware i) (firstColumn Cfg.thisHardware (i + 1)) := by
  have hend : firstColumn Cfg.thisHardware (i + 1) ≤ 128 := by
    rw [firstColumn_thisHardware]
    omega
  calc columnsOf i
      = ((List.Ico 0 128).filter fun x => x < firstColumn Cfg.thisHardware (i + 1)).filter
          fun x => firstColumn Cfg.thisHardware i ≤ x := by
        simp [columnsOf, List.Ico.zero_bot, List.filter_filter, chmap_eq_iff]
    _ = _ := by
        rw [List.Ico.filter_lt, Nat.min_eq_right hend, List.Ico.filter_le, Nat.zero_max]

theorem columnsOf_length {i : Nat} (hi : i < 88) :
    (columnsOf i).length = (16 * i + 26) / 11 - (16 * i + 10) / 11 := by
  rw [columnsOf_eq_Ico hi, List.Ico.length, firstColumn_thisHardware, firstColumn_thisHardware,
    Nat.mul_succ]

/-- Every channel serves one column or two adjacent ones (R37). -/
theorem columnsOf_one_or_two {i : Nat} (hi : i < 88) : ∃ x, columnsOf i = [x] ∨ columnsOf i = [x, x + 1] := by
  refine ⟨firstColumn Cfg.thisHardware i, ?_⟩
  rw [columnsOf_eq_Ico hi]
  have hnext : firstColumn Cfg.thisHardware (i + 1) = firstColumn Cfg.thisHardware i + 1 ∨
      firstColumn Cfg.thisHardware (i + 1) = firstColumn Cfg.thisHardware i + 2 := by
    rw [firstColumn_thisHardware, firstColumn_thisHardware]
    omega
  obtain h | h := hnext
  · exact .inl (by rw [h, List.Ico.succ_singleton])
  · exact .inr (by rw [h]; simp [List.Ico, List.range'])

/-- How many channels serve `n` columns, in numbers. -/
theorem countP_columnsOf_length (n : Nat) :
    ((List.range 88).countP fun i => decide ((columnsOf i).length = n)) =
      (List.range 88).countP fun i => decide ((16 * i + 26) / 11 - (16 * i + 10) / 11 = n) := by
  refine List.countP_congr fun i hi => ?_
  rw [columnsOf_length (List.mem_range.mp hi)]

/-- Settles O7: the two counts are of numbers once `countP_columnsOf_length` has replaced the lists of columns. -/
theorem columnMapStaysInsideAndIsMonotonic : Obligations.ColumnMapStaysInsideAndIsMonotonic := by
  refine ⟨fun c _ hx => chmap_lt c hx, fun c _ _ h => chmap_le_chmap c h,
    ⟨chmap_thisHardware 0, chmap_thisHardware 127⟩, fun _ h => exists_adjacent_share h,
    fun _ h => exists_unused_channel h, fun _ hi => columnsOf_one_or_two hi, ?_, ?_⟩
  · rw [countP_columnsOf_length]
    decide
  · rw [countP_columnsOf_length]
    decide

/-- Sixteen columns on, the channel is eleven higher (R42). -/
theorem chmap_add_sixteen (x : Nat) : chmap Cfg.thisHardware (x + 16) = chmap Cfg.thisHardware x + 11 := by
  rw [chmap_thisHardware, chmap_thisHardware]
  omega

/-- How many columns a channel serves depends on its remainder modulo 11 alone (R42). -/
theorem columnsOf_length_mod {i : Nat} (hi : i < 88) :
    (columnsOf i).length = (16 * (i % 11) + 26) / 11 - (16 * (i % 11) + 10) / 11 := by
  have hshift (k : Nat) : (16 * i + k) / 11 = 16 * (i / 11) + (16 * (i % 11) + k) / 11 := by omega
  rw [columnsOf_length hi, hshift 26, hshift 10, Nat.add_sub_add_left]

/-- Settles O8: the pattern, and a channel's count of columns by its remainder. -/
theorem columnMapOfThisHardware : Obligations.ColumnMapOfThisHardware := by
  refine ⟨by decide, fun x _ => chmap_add_sixteen x, fun i hi => ?_⟩
  have hres : ∀ r, r < 11 → ((16 * r + 26) / 11 - (16 * r + 10) / 11 = 2 ↔ r ∈ [0, 2, 4, 6, 8]) := by decide
  rw [columnsOf_length_mod hi]
  exact hres (i % 11) (Nat.mod_lt i (by decide))

end Sys2Proof.Machine
end

section
/-! PROOFS. Element access (spec 20_memory R31): the width of an element, and the two outcomes of a read
and of a write as equations. -/

namespace Sys2Proof.Machine

open Sys2Proof

/-- An element of a well-formed memory fits the element width of its space (R12 to R15, R31). -/
theorem memRead_lt {c : Cfg} {m : Memory} (hwf : m.wf c = true) {sp : Space} {j v : Nat}
    (hv : memRead m sp j = some v) : v < 2 ^ spaceWidth c sp := by
  obtain ⟨_, hpeak, hflt, hhist⟩ := (wf_iff c m).mp hwf
  cases sp with
  | cur =>
    obtain ⟨a, _, rfl⟩ := Option.map_eq_some_iff.mp hv
    exact a.isLt
  | peak => exact (hpeak v (List.mem_of_getElem? hv)).trans_lt Nat.lt_log2_self
  | flt => exact (hflt v (List.mem_of_getElem? hv)).trans_lt Nat.lt_log2_self
  | hist =>
    obtain ⟨w, hw, rfl⟩ := Option.map_eq_some_iff.mp hv
    exact (hhist w (List.mem_of_getElem? hw)).trans_lt (Nat.sub_one_lt (Nat.two_pow_pos _).ne')

/-- Settles O40: an element exists below the count of its array, which is the bound of its space. -/
theorem elementsFitTheirWidth : Obligations.ElementsFitTheirWidth := by
  intro s sp j hwf
  refine ⟨?_, fun v hv => memRead_lt hwf hv⟩
  rw [← Option.isSome_iff_exists, memRead_isSome, sized_count (State.wf_sized hwf)]

/-- Writing the same value again finds the memory as it is. -/
theorem memWrite_again {m m' : Memory} {sp : Space} {i v : Nat} (h : memWrite m sp i v = some m') :
    memWrite m' sp i v = some m' := by
  unfold memWrite at h
  split at h
  · next hi =>
    cases h
    cases sp <;> simpa [memWrite, Memory.count] using hi
  · cases h

section Access
variable {sp : Space} {idx : Byte} {s : State}

theorem readElement_refused (h : spaceBound s.cfg sp ≤ idx.toNat) :
    readElement sp idx s = .next (refuse .eBadIdx s) := if_pos h

theorem readElement_found {v : Nat} (h : idx.toNat < spaceBound s.cfg sp) (hv : memRead s.mem sp idx.toNat = some v) :
    readElement sp idx s = .next (respond (zext32 v) s) := by
  simp [readElement, Nat.not_le.mpr h, hv]

theorem writeElement_refused {v : Nat} (h : spaceBound s.cfg sp ≤ idx.toNat) :
    writeElement sp idx v s = .next (refuse .eBadIdx s) := if_pos h

theorem writeElement_found {v : Nat} {m : Memory} (h : idx.toNat < spaceBound s.cfg sp)
    (hm : memWrite s.mem sp idx.toNat v = some m) :
    writeElement sp idx v s = .next (respond 0#32 { s with mem := m }) := by
  simp [writeElement, Nat.not_le.mpr h, hm]

end Access

end Sys2Proof.Machine
end

section
/-! PROOFS. Commands that follow one another (spec 20_memory R34, R38): the same one again, and a read after a write. -/

namespace Sys2Proof.Machine

open Sys2Proof

/-- A read that completes only answers, and a second one answers the same (R34). -/
theorem readElement_repeats {sp : Space} {idx : Byte} {s t : State} (h : readElement sp idx s = .next t) :
    ∃ r, t = answer r s ∧ readElement sp idx t = .next (answer r t) := by
  obtain ⟨hout, rfl⟩ | ⟨v, hin, hv, rfl⟩ := readElement_cases h
  · exact ⟨_, rfl, readElement_refused hout⟩
  · exact ⟨_, rfl, readElement_found hin hv⟩

/-- A write that completes, refused or not, leaves the arrays a second one leaves (R34). -/
theorem writeElement_repeats {sp : Space} {idx : Byte} {v : Nat} {s t : State}
    (h : writeElement sp idx v s = .next t) : ∃ u, writeElement sp idx v t = .next u ∧ u.mem = t.mem := by
  obtain ⟨hout, rfl⟩ | ⟨m, hin, hm, rfl⟩ := writeElement_cases h
  · exact ⟨_, writeElement_refused hout, rfl⟩
  · exact ⟨_, writeElement_found hin (memWrite_again hm), rfl⟩

/-- A read command is a read of one element. -/
theorem exec_eq_readElement {i : Instr} (h : isReadCommand i = true) :
    ∃ sp idx, ∀ s, exec i s = readElement sp idx s := by
  cases i with
  | rds ch => exact ⟨.cur, ch, exec_rds_eq ch⟩
  | rdp ch => exact ⟨.peak, ch, exec_rdp_eq ch⟩
  | rdf ch => exact ⟨.flt, ch, exec_rdf_eq ch⟩
  | rdw col => exact ⟨.hist, col, exec_rdw_eq col⟩
  | wrs ch val => cases h
  | trk => cases h
  | wfu => cases h

/-- This hardware with levels above its quiet samples and one bit in every history word: both bulk commands move it,
twice over. -/
def fallingState : State :=
  { State.reset with
    mem := {
      cur := List.replicate 88 255#8
      peak := List.replicate 88 2
      flt := List.replicate 88 4
      hist := List.replicate 128 1#32 } }

theorem fallingState_wf : fallingState.wf = true := by
  refine (wf_iff _ _).mpr ⟨(sized_iff _ _).mpr ?_, ?_, ?_, ?_⟩
  · simp [fallingState, State.reset, Cfg.thisHardware, Params.observed]
  · intro p hp
    obtain rfl := List.eq_of_mem_replicate hp
    decide
  · intro f hf
    obtain rfl := List.eq_of_mem_replicate hf
    decide
  · intro w hw
    obtain rfl := List.eq_of_mem_replicate hw
    decide

/-- A bulk command that keeps the arrays sized runs twice. -/
theorem updateArrays_twice {f : Cfg → Memory → Memory} {s : State} (hs : s.mem.sized s.cfg = true)
    (hf : (f s.cfg s.mem).sized s.cfg = true) :
    ∃ t u, updateArrays f s = .next t ∧ updateArrays f t = .next u ∧ t.mem = f s.cfg s.mem ∧
      u.mem = f s.cfg t.mem :=
  ⟨_, _, if_pos hs, if_pos hf, rfl, rfl⟩

/-- The peak of channel 0 falls from 2 to 1 to 0. -/
theorem trk_not_idempotent :
    ∃ s t u, s.wf = true ∧ exec .trk s = .next t ∧ exec .trk t = .next u ∧ u.mem ≠ t.mem := by
  have hs := State.wf_sized fallingState_wf
  obtain ⟨t, u, ht, hu, htm, hum⟩ := updateArrays_twice hs (trackAll_sized _ _ hs)
  refine ⟨fallingState, t, u, fallingState_wf, ht, hu, fun heq => ?_⟩
  have hfirst : t.mem.peak[0]? = some 1 := by
    rw [htm]
    exact trackAll_peak_getElem? _ _ 0 (a := 255#8) (p := 2) rfl rfl
  have hsecond : u.mem.peak[0]? = some 0 := by
    rw [hum]
    exact trackAll_peak_getElem? _ _ 0 (a := 255#8) (by rw [htm]; rfl) hfirst
  simp [heq, hfirst] at hsecond

/-- The history word of column 0 goes from 1 to 2 to 4. -/
theorem wfu_not_idempotent :
    ∃ s t u, s.wf = true ∧ exec .wfu s = .next t ∧ exec .wfu t = .next u ∧ u.mem ≠ t.mem := by
  have hs := State.wf_sized fallingState_wf
  obtain ⟨t, u, ht, hu, htm, hum⟩ := updateArrays_twice hs (scanAll_sized _ _ hs)
  refine ⟨fallingState, t, u, fallingState_wf, ht, hu, fun heq => ?_⟩
  have hfirst : t.mem.hist[0]? = some 2#32 := by
    rw [htm]
    exact scanAll_hist_getElem? _ _ 0 (w := 1#32) rfl
  have hsecond : u.mem.hist[0]? = some 4#32 := by
    rw [hum]
    exact (scanAll_hist_getElem? _ _ 0 hfirst).trans (by rw [htm]; rfl)
  simp [heq, hfirst] at hsecond

/-- Settles O31: reads and WRS by the shared operations, TRK and WFU by a state they both change twice. -/
theorem readsAndWritesRepeatBulkCommandsDoNot : Obligations.ReadsAndWritesRepeatBulkCommandsDoNot := by
  refine ⟨fun i s t hread h => ?_, fun s t ch val h => ?_, trk_not_idempotent, wfu_not_idempotent⟩
  · obtain ⟨sp, idx, hexec⟩ := exec_eq_readElement hread
    rw [hexec] at h
    obtain ⟨r, rfl, hagain⟩ := readElement_repeats h
    exact ⟨rfl, _, r, (hexec _).trans hagain, rfl, rfl, rfl⟩
  · exact writeElement_repeats h

/-- A byte, zero-extended (R8, R52). -/
theorem zext32_toNat (v : Byte) : zext32 v.toNat = v.setWidth 32 := by
  apply BitVec.eq_of_toNat_eq
  simp [zext32]

/-- Settles O32: the write stores the sample where the read finds it. -/
theorem readAfterWriteReturnsTheSample : Obligations.ReadAfterWriteReturnsTheSample := by
  intro s ch val hs hch
  have hexists : ch.toNat < s.mem.count .cur := by rwa [sized_count hs]
  obtain ⟨m, hm⟩ := Option.isSome_iff_exists.mp ((memWrite_isSome s.mem .cur ch.toNat val.toNat).mpr hexists)
  have hread : memRead m .cur ch.toNat = some val.toNat := memRead_memWrite_same hm (fun _ => val.isLt) nofun
  exact ⟨_, _, writeElement_found hch hm, readElement_found hch hread, rfl, by simp [zext32_toNat]⟩

end Sys2Proof.Machine
end

section
/-! PROOFS. Decoding and encoding (spec 30_encoding R46, R48, R51, R56): selecting a command is the inverse of encoding
it, so the accepted words are the encodings of the well-formed commands. -/

namespace Sys2Proof

/-- The word of a command selects it in the opcode map (R48). -/
@[simp] theorem select_encode (i : Instr) : select (encode i) = some i := by
  cases i with
  | wrs ch val => exact Laws.SelectEncode.wrs ch val
  | rds ch => exact Laws.SelectEncode.rds ch
  | trk => exact Laws.SelectEncode.trk
  | rdp ch => exact Laws.SelectEncode.rdp ch
  | rdf ch => exact Laws.SelectEncode.rdf ch
  | wfu => exact Laws.SelectEncode.wfu
  | rdw col => exact Laws.SelectEncode.rdw col

/-- A word is given by its three fields (R46). -/
theorem formatC_eq_iff (w : Cmd) (op : BitVec 4) (idx data : Byte) :
    formatC op idx data = w ↔ opOf w = op ∧ idxOf w = idx ∧ dataOf w = data := by
  constructor
  · rintro rfl
    simp
  · rintro ⟨rfl, rfl, rfl⟩
    exact formatC_fields w

theorem formatC_eq {w : Cmd} {op : BitVec 4} {idx data : Byte} (hop : (opOf w).toNat = op.toNat) (hidx : idxOf w = idx)
    (hdata : dataOf w = data) : formatC op idx data = w :=
  (formatC_eq_iff w op idx data).mpr ⟨BitVec.eq_of_toNat_eq hop, hidx, hdata⟩

/-- A word that selects a command is the encoding of that command: what `select` does not carry over is 0 (R50). -/
theorem encode_of_select {w : Cmd} {i : Instr} (h : select w = some i) : encode i = w := by
  unfold select at h
  split at h
  case h_1 hop =>
    cases h
    exact formatC_eq hop rfl rfl
  case h_2 hop | h_4 hop | h_5 hop | h_7 hop =>
    split at h <;> cases h
    next hdata => exact formatC_eq hop rfl hdata
  case h_3 hop | h_6 hop =>
    split at h <;> cases h
    next hzero => exact formatC_eq hop hzero.1 hzero.2
  case h_8 => cases h

/-- No two commands have the same word. -/
theorem encode_injective : Function.Injective encode := by
  intro i j h
  have hsome : some i = some j := by rw [← select_encode i, h, select_encode]
  exact Option.some.inj hsome

theorem decode_encode (c : Cfg) (i : Instr) :
    decode c (encode i) = if i.wellFormed c then .accepted i else .refused .eBadIdx := by
  simp [decode]

/-- Settles O12: the word selects the command, and decoding then looks at its index alone. -/
theorem decodeOfEncodeIsTheCommand : Obligations.DecodeOfEncodeIsTheCommand := by
  intro c i
  rw [decode_encode]
  exact ⟨fun h => if_pos h, fun h => if_neg (Bool.eq_false_iff.mp h)⟩

/-- Settles O13. -/
theorem acceptedWordsAreEncodings : Obligations.AcceptedWordsAreEncodings := by
  intro c w i h
  obtain ⟨hselect, hwf⟩ := (decode_eq_accepted_iff c w i).mp h
  exact ⟨encode_of_select hselect, hwf⟩

/-- Settles O14: nine fixed words. -/
theorem wordsOfTheSpecDecode : Obligations.WordsOfTheSpecDecode := by
  unfold Obligations.WordsOfTheSpecDecode
  decide

end Sys2Proof
end

section
/-! PROOFS. The opcode map (spec 30_encoding R48): a word selects a row exactly when it is the word of a command of that
row. -/

namespace Sys2Proof

/-- The row of a command in the opcode map (R48). `exists_encode_of_selects` ties it to `opcodeRows`. -/
def Instr.row : Instr → OpcodeRow
  | .wrs _ _ => ⟨"WRS", 0x10000#20, 0xF0000#20⟩
  | .rds _ => ⟨"RDS", 0x20000#20, 0xF00FF#20⟩
  | .trk => ⟨"TRK", 0x30000#20, 0xFFFFF#20⟩
  | .rdp _ => ⟨"RDP", 0x40000#20, 0xF00FF#20⟩
  | .rdf _ => ⟨"RDF", 0x50000#20, 0xF00FF#20⟩
  | .wfu => ⟨"WFU", 0x60000#20, 0xFFFFF#20⟩
  | .rdw _ => ⟨"RDW", 0x70000#20, 0xF00FF#20⟩

theorem Instr.row_mem (i : Instr) : i.row ∈ opcodeRows := by cases i <;> simp [row, opcodeRows]

theorem Instr.row_mnemonic (i : Instr) : i.row.mnemonic = i.mnemonic := by cases i <;> rfl

/-- The mnemonic names its row. -/
theorem opcodeRow_eq_of_mnemonic_eq :
    ∀ r ∈ opcodeRows, ∀ r' ∈ opcodeRows, r.mnemonic = r'.mnemonic → r = r' := by decide

/-! #### The three masks of the map: what a word matches under each -/

section Masks
variable (w : Cmd) (op : BitVec 4)

/-- A masked word is known by its masked fields. -/
theorem and_eq_formatC_iff (mask : Cmd) (idx data : Byte) :
    w &&& mask = formatC op idx data ↔
      opOf w &&& opOf mask = op ∧ idxOf w &&& idxOf mask = idx ∧ dataOf w &&& dataOf mask = data := by
  have hop : opOf (w &&& mask) = opOf w &&& opOf mask := BitVec.extractLsb'_and
  have hidx : idxOf (w &&& mask) = idxOf w &&& idxOf mask := BitVec.extractLsb'_and
  have hdata : dataOf (w &&& mask) = dataOf w &&& dataOf mask := BitVec.extractLsb'_and
  rw [eq_comm, formatC_eq_iff, hop, hidx, hdata]

/-- The mask of a row with both operands (WRS). -/
theorem and_opMask_iff :
    w &&& 0xF0000#20 = formatC op 0#8 0#8 ↔ formatC op (idxOf w) (dataOf w) = w := by
  rw [and_eq_formatC_iff, formatC_eq_iff, show opOf 0xF0000#20 = BitVec.allOnes 4 by decide,
    show idxOf 0xF0000#20 = 0#8 by decide, show dataOf 0xF0000#20 = 0#8 by decide]
  simp only [BitVec.and_allOnes, BitVec.and_zero, and_true]

/-- The mask of a row with an index alone (RDS, RDP, RDF, RDW). -/
theorem and_opDataMask_iff :
    w &&& 0xF00FF#20 = formatC op 0#8 0#8 ↔ formatC op (idxOf w) 0#8 = w := by
  rw [and_eq_formatC_iff, formatC_eq_iff, show opOf 0xF00FF#20 = BitVec.allOnes 4 by decide,
    show idxOf 0xF00FF#20 = 0#8 by decide, show dataOf 0xF00FF#20 = BitVec.allOnes 8 by decide]
  simp only [BitVec.and_allOnes, BitVec.and_zero, true_and]

/-- The mask of a row without operands (TRK, WFU). -/
theorem and_fullMask_iff : w &&& 0xFFFFF#20 = formatC op 0#8 0#8 ↔ formatC op 0#8 0#8 = w := by
  rw [show 0xFFFFF#20 = BitVec.allOnes 20 by decide, BitVec.and_allOnes, eq_comm]

end Masks

/-- A command's word selects its row. -/
theorem selects_row_encode (i : Instr) : i.row.selects (encode i) = true := by
  rw [OpcodeRow.selects, decide_eq_true_eq]
  cases i with
  | wrs ch val => exact (and_opMask_iff _ 1#4).mpr (by simp [encode])
  | rds ch => exact (and_opDataMask_iff _ 2#4).mpr (by simp [encode])
  | trk => exact (and_fullMask_iff _ 3#4).mpr rfl
  | rdp ch => exact (and_opDataMask_iff _ 4#4).mpr (by simp [encode])
  | rdf ch => exact (and_opDataMask_iff _ 5#4).mpr (by simp [encode])
  | wfu => exact (and_fullMask_iff _ 6#4).mpr rfl
  | rdw col => exact (and_opDataMask_iff _ 7#4).mpr (by simp [encode])

/-- A word that selects a row of the map is the word of a command of that row. -/
theorem exists_encode_of_selects {r : OpcodeRow} (hr : r ∈ opcodeRows) {w : Cmd} (h : r.selects w = true) :
    ∃ i, encode i = w ∧ i.row = r := by
  rw [OpcodeRow.selects, decide_eq_true_eq] at h
  simp only [opcodeRows, List.mem_cons, List.not_mem_nil, or_false] at hr
  obtain rfl | rfl | rfl | rfl | rfl | rfl | rfl := hr
  · exact ⟨.wrs (idxOf w) (dataOf w), (and_opMask_iff w 1#4).mp h, rfl⟩
  · exact ⟨.rds (idxOf w), (and_opDataMask_iff w 2#4).mp h, rfl⟩
  · exact ⟨.trk, (and_fullMask_iff w 3#4).mp h, rfl⟩
  · exact ⟨.rdp (idxOf w), (and_opDataMask_iff w 4#4).mp h, rfl⟩
  · exact ⟨.rdf (idxOf w), (and_opDataMask_iff w 5#4).mp h, rfl⟩
  · exact ⟨.wfu, (and_fullMask_iff w 6#4).mp h, rfl⟩
  · exact ⟨.rdw (idxOf w), (and_opDataMask_iff w 7#4).mp h, rfl⟩

/-- Settles O9: a word selects a row exactly when it is the encoding of a command of that row, and it encodes one
command at most. -/
theorem decoderAgreesWithTheOpcodeMap : Obligations.DecoderAgreesWithTheOpcodeMap := by
  intro w
  refine ⟨fun r hr => ⟨fun hsel => ?_, ?_⟩, fun i hi => ?_, fun r hr r' hr' hsel hsel' => ?_⟩
  · obtain ⟨i, rfl, rfl⟩ := exists_encode_of_selects hr hsel
    exact ⟨i, select_encode i, i.row_mnemonic.symm⟩
  · rintro ⟨i, hi, hname⟩
    obtain rfl := encode_of_select hi
    obtain rfl := opcodeRow_eq_of_mnemonic_eq _ i.row_mem r hr (i.row_mnemonic.trans hname)
    exact selects_row_encode i
  · obtain rfl := encode_of_select hi
    exact ⟨i.row, i.row_mem, selects_row_encode i⟩
  · obtain ⟨i, rfl, rfl⟩ := exists_encode_of_selects hr hsel
    obtain ⟨j, hword, rfl⟩ := exists_encode_of_selects hr' hsel'
    rw [encode_injective hword]

end Sys2Proof
end

section
/-! PROOFS. The tests of decoding, in their order (spec 30_encoding R49 to R51, 20_memory R33). -/

namespace Sys2Proof

/-- A word selects no command when its opcode is reserved (R49) or a field its opcode leaves unused is not 0 (R50). -/
theorem select_eq_none_iff (w : Cmd) :
    select w = none ↔ (opOf w).toNat ∉ [1, 2, 3, 4, 5, 6, 7] ∨
      ((opOf w).toNat ∈ [2, 4, 5, 7] ∧ (dataOf w).toNat ≠ 0) ∨
      ((opOf w).toNat ∈ [3, 6] ∧ ((idxOf w).toNat ≠ 0 ∨ (dataOf w).toNat ≠ 0)) := by
  have hzero (b : Byte) : b = 0#8 ↔ b.toNat = 0 := BitVec.toNat_inj.symm
  unfold select
  split
  case h_8 => simp_all
  case h_3 hop | h_6 hop => simp [hop, hzero, imp_iff_not_or]
  all_goals next hop => simp [hop, hzero]

/-- The index of a command, as a field of its word, is outside its space (R33). -/
theorem wellFormed_eq_false_iff (c : Cfg) (i : Instr) :
    i.wellFormed c = false ↔
      ((opOf (encode i)).toNat ∈ [1, 2, 4, 5] ∧ c.bandwidth ≤ (idxOf (encode i)).toNat) ∨
        (opOf (encode i)).toNat = 7 ∧ c.displayWidth ≤ (idxOf (encode i)).toNat := by
  cases i <;> simp [encode, Instr.wellFormed, Cfg.channelOk, Cfg.columnOk]

/-- Settles O10: the first three tests are those of `select`, the last two that of the command's index. -/
theorem decodingFollowsItsOrder : Obligations.DecodingFollowsItsOrder := by
  intro c w
  cases hsel : select w with
  | none =>
    have hbadOp : decode c w = .refused .eBadOp := by simp only [decode, hsel]
    obtain hreserved | hdata | hunused := (select_eq_none_iff w).mp hsel
    · rwa [if_pos hreserved]
    · rwa [if_pos hdata, ite_self]
    · rwa [if_pos hunused, ite_self, ite_self]
  | some i =>
    obtain rfl := encode_of_select hsel
    have hfields := (select_eq_none_iff (encode i)).not.mp (by simp)
    rw [not_or, not_or] at hfields
    obtain ⟨hreserved, hdata, hunused⟩ := hfields
    rw [if_neg hreserved, if_neg hdata, if_neg hunused]
    cases hwf : i.wellFormed c with
    | false =>
      have hbadIdx : decode c (encode i) = .refused .eBadIdx := by simp [decode_encode, hwf]
      obtain hchannel | hcolumn := (wellFormed_eq_false_iff c i).mp hwf
      · rwa [if_pos hchannel]
      · rwa [if_pos hcolumn, ite_self]
    | true =>
      have hindex := (wellFormed_eq_false_iff c i).not.mp (by simp [hwf])
      rw [not_or] at hindex
      rw [if_neg hindex.1, if_neg hindex.2]
      exact ⟨i, by simp [decode_encode, hwf], rfl⟩

end Sys2Proof
end

section
/-! PROOFS. How many words are accepted (spec 30_encoding R51): as many as there are well-formed commands. -/

namespace Sys2Proof

/-- The bytes below `n` are the numbers below `n`. -/
def byteLtEquiv {n : Nat} (hn : n ≤ 256) : {b : Byte // b.toNat < n} ≃ Fin n where
  toFun b := ⟨b.1.toNat, b.2⟩
  invFun k := ⟨BitVec.ofNat 8 k, (Nat.mod_le _ _).trans_lt k.2⟩
  left_inv b := by simp
  right_inv k := Fin.ext (Nat.mod_eq_of_lt (k.2.trans_le hn))

theorem card_byte_lt {n : Nat} (hn : n ≤ 256) : Nat.card {b : Byte // b.toNat < n} = n := by
  rw [Nat.card_congr (byteLtEquiv hn), Nat.card_fin]

theorem card_byte : Nat.card Byte = 256 :=
  (Nat.card_congr BitVec.equivFin.toEquiv).trans (Nat.card_fin _)

section Count
variable (c : Cfg)

/-- A well-formed command is a mnemonic with operands inside their spaces (R33): in the order of R48, WRS, RDS, TRK,
RDP, RDF, WFU and RDW. -/
def wellFormedEquiv :
    {i : Instr // i.wellFormed c = true} ≃
      {ch // c.channelOk ch = true} × Byte ⊕ {ch // c.channelOk ch = true} ⊕ Unit ⊕ {ch // c.channelOk ch = true} ⊕
        {ch // c.channelOk ch = true} ⊕ Unit ⊕ {col // c.columnOk col = true} where
  toFun
    | ⟨.wrs ch val, h⟩ => .inl (⟨ch, h⟩, val)
    | ⟨.rds ch, h⟩ => .inr (.inl ⟨ch, h⟩)
    | ⟨.trk, _⟩ => .inr (.inr (.inl ()))
    | ⟨.rdp ch, h⟩ => .inr (.inr (.inr (.inl ⟨ch, h⟩)))
    | ⟨.rdf ch, h⟩ => .inr (.inr (.inr (.inr (.inl ⟨ch, h⟩))))
    | ⟨.wfu, _⟩ => .inr (.inr (.inr (.inr (.inr (.inl ())))))
    | ⟨.rdw col, h⟩ => .inr (.inr (.inr (.inr (.inr (.inr ⟨col, h⟩)))))
  invFun
    | .inl (ch, val) => ⟨.wrs ch val, ch.2⟩
    | .inr (.inl ch) => ⟨.rds ch, ch.2⟩
    | .inr (.inr (.inl _)) => ⟨.trk, rfl⟩
    | .inr (.inr (.inr (.inl ch))) => ⟨.rdp ch, ch.2⟩
    | .inr (.inr (.inr (.inr (.inl ch)))) => ⟨.rdf ch, ch.2⟩
    | .inr (.inr (.inr (.inr (.inr (.inl _))))) => ⟨.wfu, rfl⟩
    | .inr (.inr (.inr (.inr (.inr (.inr col))))) => ⟨.rdw col, col.2⟩
  left_inv := by rintro ⟨i, h⟩; cases i <;> rfl
  right_inv := by rintro (_ | _ | _ | _ | _ | _ | _) <;> rfl

theorem card_channelOk : Nat.card {ch // c.channelOk ch = true} = c.bandwidth := by
  simpa [Cfg.channelOk] using card_byte_lt c.ranges.1.2

theorem card_columnOk : Nat.card {col // c.columnOk col = true} = c.displayWidth := by
  simpa [Cfg.columnOk] using card_byte_lt c.ranges.2.1.2

/-- BW * 256 commands WRS, BW each of RDS, RDP and RDF, DW of RDW, and TRK and WFU (R51). -/
theorem card_wellFormed :
    Nat.card {i : Instr // i.wellFormed c = true} = c.bandwidth * 256 + 3 * c.bandwidth + c.displayWidth + 2 := by
  rw [Nat.card_congr (wellFormedEquiv c)]
  simp only [Nat.card_sum, Nat.card_prod, Nat.card_unique, card_channelOk, card_columnOk, card_byte]
  omega

/-- The accepted words are those of the well-formed commands. -/
theorem acceptedWords_eq_image :
    {w : Cmd | ∃ i, decode c w = .accepted i} = encode '' {i | i.wellFormed c = true} := by
  ext w
  constructor
  · rintro ⟨i, h⟩
    obtain ⟨hword, hwf⟩ := acceptedWordsAreEncodings c w i h
    exact ⟨i, hwf, hword⟩
  · rintro ⟨i, hwf, rfl⟩
    exact ⟨i, (decodeOfEncodeIsTheCommand c i).1 hwf⟩

/-- R51's count, for every configuration. -/
theorem ncard_acceptedWords :
    {w : Cmd | ∃ i, decode c w = .accepted i}.ncard = c.bandwidth * 256 + 3 * c.bandwidth + c.displayWidth + 2 := by
  rw [acceptedWords_eq_image, Set.ncard_image_of_injective _ encode_injective, ← card_wellFormed]
  rfl

end Count

/-- Settles O11: 88 * 256 + 3 * 88 + 128 + 2. -/
theorem acceptedWordsOfThisHardwareNumber22922 : Obligations.AcceptedWordsOfThisHardwareNumber22922 :=
  ncard_acceptedWords Cfg.thisHardware

end Sys2Proof
end

section
/-! PROOFS. The assembler and the pseudo-instructions (spec 30_encoding R55, R57, R62). -/

namespace Sys2Proof.Machine

open Sys2Proof

/-! #### The words of the assembler -/

section Line
variable {n : Nat}

theorem fitByte_of_le (h : n ≤ 255) : fitByte n = some (BitVec.ofNat 8 n) := if_pos h

theorem fitByte_of_gt (h : 255 < n) : fitByte n = none := if_neg (Nat.not_le.mpr h)

end Line

/-- The word of three numbers is their shifted sum (R55). -/
theorem formatC_ofNat {op idx data : Nat} (hidx : idx ≤ 255) (hdata : data ≤ 255) :
    formatC (BitVec.ofNat 4 op) (BitVec.ofNat 8 idx) (BitVec.ofNat 8 data) =
      BitVec.ofNat 20 (op * 2 ^ 16 + idx * 2 ^ 8 + data) := by
  refine (formatC_eq_iff _ _ _ _).mpr ⟨?_, ?_, ?_⟩ <;> apply BitVec.eq_of_toNat_eq
  · rw [opOf, BitVec.extractLsb'_toNat, BitVec.toNat_ofNat, BitVec.toNat_ofNat, Nat.shiftRight_eq_div_pow]
    omega
  · rw [idxOf, BitVec.extractLsb'_toNat, BitVec.toNat_ofNat, BitVec.toNat_ofNat, Nat.shiftRight_eq_div_pow]
    omega
  · rw [dataOf, BitVec.extractLsb'_toNat, BitVec.toNat_ofNat, BitVec.toNat_ofNat, Nat.shiftRight_eq_div_pow]
    omega

/-- Settles O16: an operand that fits its field is a number below 256, and a word is the sum of its shifted fields. -/
theorem assemblerWordsAreShiftedFields : Obligations.AssemblerWordsAreShiftedFields := by
  refine ⟨fun ch val hch hval => ?_, fun ch hch => ?_, ⟨by decide, by decide⟩, fun ch val hout => ?_,
    fun ch hout => ?_, fun w hw => if_pos hw, by decide, by decide⟩
  · simp only [assemble, fitByte_of_le hch, fitByte_of_le hval, Option.bind_some, Option.map_some, Option.some.injEq]
    exact formatC_ofNat (op := 1) hch hval
  · have hword (op : Nat) := formatC_ofNat (op := op) hch (Nat.zero_le 255)
    simp only [assemble, fitByte_of_le hch, Option.map_some, Option.some.injEq]
    exact ⟨hword 2, hword 4, hword 5, hword 7⟩
  · obtain hch | hval := hout
    · simp [assemble, fitByte_of_gt hch]
    · simp [assemble, fitByte_of_gt hval]
  · simp [assemble, fitByte_of_gt hout]

/-! #### The commands of a sweep -/

/-- The channels a sweep writes, in order (R57). -/
theorem sweepOf_map_writtenChannel {vs : List Byte} (h : vs.length ≤ 256) :
    (sweepOf vs).map writtenChannel = (List.range vs.length).map some := by
  apply List.ext_getElem?
  intro i
  by_cases hi : i < vs.length
  · have hbyte : i % 256 = i := Nat.mod_eq_of_lt (by omega)
    simp [sweepOf, hi, writtenChannel, hbyte]
  · simp [sweepOf, hi]

/-- A later WRS to the channel wins (R62). -/
theorem sweptSample_wrs_cons (i : Nat) (ch val : Byte) (is : List Instr) :
    sweptSample i (.wrs ch val :: is) = (sweptSample i is).or (if ch.toNat = i then some val else none) := by
  rw [sweptSample]
  cases sweptSample i is <;> rfl

/-- The sample that a sweep from channel `k` on leaves for channel `i`. -/
theorem sweptSample_mapIdx (i k : Nat) (vs : List Byte) (h : k + vs.length ≤ 256) :
    sweptSample i (vs.mapIdx fun j v => .wrs (BitVec.ofNat 8 (j + k)) v) = if k ≤ i then vs[i - k]? else none := by
  induction vs generalizing k with
  | nil => simp [sweptSample]
  | cons v vs ih =>
    rw [List.length_cons] at h
    have hk : (BitVec.ofNat 8 k).toNat = k := Nat.mod_eq_of_lt (by omega)
    have hshift (j : Nat) : j + 1 + k = j + (k + 1) := Nat.succ_add_eq_add_succ j k
    simp only [List.mapIdx_cons, Nat.zero_add, hshift, sweptSample_wrs_cons, ih (k + 1) (by omega), hk]
    obtain hlt | rfl | hgt := Nat.lt_trichotomy i k
    · simp [Nat.not_le.mpr hlt, Nat.not_le.mpr (Nat.lt_succ_of_lt hlt), hlt.ne']
    · simp
    · obtain ⟨d, rfl⟩ := Nat.exists_eq_add_of_lt hgt
      have hindex : k + d + 1 - k = d + 1 := by omega
      simp [hgt.le, hgt.ne, hindex]

theorem sweptSample_sweepOf {vs : List Byte} (h : vs.length ≤ 256) (i : Nat) : sweptSample i (sweepOf vs) = vs[i]? := by
  simpa [sweepOf] using sweptSample_mapIdx i 0 vs (by omega)

theorem expand_sweep_isSome (c : Cfg) (vs : List Byte) :
    (expand c (.sweep vs)).isSome = true ↔ vs.length = c.bandwidth := by
  simp [expand]

theorem expand_frame_isSome (c : Cfg) (vs : List Byte) :
    (expand c (.frame vs)).isSome = true ↔ vs.length = c.bandwidth := by
  simp [expand]

/-- A list of BW samples has its sweep. -/
theorem expand_sweep {c : Cfg} {vs : List Byte} (h : vs.length = c.bandwidth) :
    expand c (.sweep vs) = some (sweepOf vs) := if_pos h

theorem expand_frame {c : Cfg} {vs : List Byte} (h : vs.length = c.bandwidth) :
    expand c (.frame vs) = some (sweepOf vs ++ [.trk, .wfu]) := if_pos h

/-- Settles O51. -/
theorem pseudoInstructionsExpand : Obligations.PseudoInstructionsExpand := by
  intro c vs v
  have hfill : (List.replicate c.bandwidth v).length = c.bandwidth := List.length_replicate
  exact ⟨expand_sweep_isSome c vs, expand_frame_isSome c vs, (expand_sweep hfill).symm, rfl, rfl⟩

/-- Settles O17: a sweep that expands has BW samples, at most 256 of them, so every channel number fits its field. -/
theorem sweepWritesEveryChannelOnce : Obligations.SweepWritesEveryChannelOnce := by
  intro c vs is h
  have hlen : vs.length = c.bandwidth := (expand_sweep_isSome c vs).mp (Option.isSome_of_eq_some h)
  have hfits : vs.length ≤ 256 := hlen ▸ c.ranges.1.2
  rw [expand_sweep hlen] at h
  cases h
  have hchannels : (sweepOf vs).map writtenChannel = (List.range c.bandwidth).map some :=
    hlen ▸ sweepOf_map_writtenChannel hfits
  exact ⟨.of_eq hchannels, hchannels, sweptSample_sweepOf hfits, expand_frame hlen⟩

end Sys2Proof.Machine
end

section
/-! PROOFS. One step (spec 30_encoding R52, R54, 60_exceptions R95, R100): what a command word does, what its response
carries, and that nothing else goes into it. -/

namespace Sys2Proof.Machine

open Sys2Proof

/-! #### A step with a word at the port is its transaction -/

section Word
variable {s : State} {w : Cmd} {rest : List HostEvent}

theorem step_of_command (h : s.pending = .command w :: rest) :
    step s = transact w (advance { s with pending := rest }) := by
  simp only [step, hostMove, h]

theorem transact_of_accepted {i : Instr} (h : decode s.cfg w = .accepted i) : transact w s = exec i s := by
  simp only [transact, h]

theorem transact_of_refused {st : Status} (h : decode s.cfg w = .refused st) :
    transact w s = .next (refuse st s) := by
  simp only [transact, h]

end Word

/-- Settles O18. -/
theorem stepRunsTheDecodedCommand : Obligations.StepRunsTheDecodedCommand := by
  intro s w rest i hpending hdecode
  rw [step_of_command hpending]
  exact transact_of_accepted hdecode

/-- Settles O39, by cases on the host's move: the arrays are sized, so the transaction of any word completes. -/
theorem wellFormedStateAlwaysSteps : Obligations.WellFormedStateAlwaysSteps := by
  intro s hwf
  change ∃ t, hostMove s = .next t
  obtain ⟨_, hmove⟩ | ⟨w, rest, _, hmove⟩ | ⟨rest, _, hmove⟩ := hostMove_cases s
  · exact ⟨s, hmove⟩
  · rw [hmove]
    exact transact_completes (s := advance { s with pending := rest }) (State.wf_sized hwf) w
  · exact ⟨_, hmove⟩

/-! #### The configuration and the arrays are all that goes into a transaction -/

section Inputs
variable {s s' t : State}

/-- From `s` and `s'` the operation `f` does the same: it leaves equal arrays, gives equal responses, and changes nothing
else. -/
def SameAnswer (f : State → Outcome) (s s' t : State) : Prop :=
  ∃ r m, t = answer r { s with mem := m } ∧ f s' = .next (answer r { s' with mem := m })

theorem readElement_sameAnswer {sp : Space} {idx : Byte} (hcfg : s.cfg = s'.cfg) (hmem : s.mem = s'.mem)
    (h : readElement sp idx s = .next t) : SameAnswer (readElement sp idx) s s' t := by
  obtain ⟨hout, rfl⟩ | ⟨v, hin, hv, rfl⟩ := readElement_cases h
  · exact ⟨_, s.mem, rfl, hmem ▸ readElement_refused (hcfg ▸ hout)⟩
  · exact ⟨_, s.mem, rfl, hmem ▸ readElement_found (hcfg ▸ hin) (hmem ▸ hv)⟩

theorem writeElement_sameAnswer {sp : Space} {idx : Byte} {v : Nat} (hcfg : s.cfg = s'.cfg) (hmem : s.mem = s'.mem)
    (h : writeElement sp idx v s = .next t) : SameAnswer (writeElement sp idx v) s s' t := by
  obtain ⟨hout, rfl⟩ | ⟨m, hin, hm, rfl⟩ := writeElement_cases h
  · exact ⟨_, s.mem, rfl, hmem ▸ writeElement_refused (hcfg ▸ hout)⟩
  · exact ⟨_, m, rfl, writeElement_found (hcfg ▸ hin) (hmem ▸ hm)⟩

theorem updateArrays_sameAnswer {f : Cfg → Memory → Memory} (hcfg : s.cfg = s'.cfg) (hmem : s.mem = s'.mem)
    (h : updateArrays f s = .next t) : SameAnswer (updateArrays f) s s' t := by
  obtain ⟨hs, rfl⟩ := updateArrays_cases h
  refine ⟨_, f s.cfg s.mem, rfl, ?_⟩
  rw [hcfg, hmem] at hs ⊢
  exact if_pos hs

theorem exec_sameAnswer {i : Instr} (hcfg : s.cfg = s'.cfg) (hmem : s.mem = s'.mem) (h : exec i s = .next t) :
    SameAnswer (exec i) s s' t := by
  cases i with
  | wrs ch val => exact writeElement_sameAnswer hcfg hmem h
  | rds ch => exact readElement_sameAnswer hcfg hmem h
  | trk => exact updateArrays_sameAnswer hcfg hmem h
  | rdp ch => exact readElement_sameAnswer hcfg hmem h
  | rdf ch => exact readElement_sameAnswer hcfg hmem h
  | wfu => exact updateArrays_sameAnswer hcfg hmem h
  | rdw col => exact readElement_sameAnswer hcfg hmem h

theorem transact_sameAnswer {w : Cmd} (hcfg : s.cfg = s'.cfg) (hmem : s.mem = s'.mem) (h : transact w s = .next t) :
    SameAnswer (transact w) s s' t := by
  obtain ⟨st, hdecode, hst⟩ | ⟨i, hdecode, hi⟩ := transact_cases w s
  · rw [hst] at h
    cases h
    exact ⟨_, s.mem, rfl, hmem ▸ transact_of_refused (hcfg ▸ hdecode)⟩
  · rw [hi] at h
    obtain ⟨r, m, ht, hs'⟩ := exec_sameAnswer hcfg hmem h
    exact ⟨r, m, ht, (transact_of_accepted (hcfg ▸ hdecode)).trans hs'⟩

end Inputs

/-- Settles O21: a step on a word is its transaction, on states that differ in no more than the statement allows. -/
theorem transactionHasNoOtherInput : Obligations.TransactionHasNoOtherInput := by
  intro s s' t w rest rest' hcfg hmem hpending hpending' hstep
  rw [step_of_command hpending] at hstep
  rw [step_of_command hpending']
  obtain ⟨r, m, rfl, hs'⟩ := transact_sameAnswer (s := advance { s with pending := rest })
    (s' := advance { s' with pending := rest' }) hcfg hmem hstep
  exact ⟨_, r, hs', rfl, rfl, rfl⟩

/-! #### What the response carries -/

theorem statusCode_ne_three (st : Status) : statusCode st ≠ 3#2 := by cases st <;> decide

theorem log2_add_one_le {n : Nat} (h : n < 2 ^ 32) : n.log2 + 1 ≤ 32 := by
  by_cases h0 : n = 0
  · simp [h0]
  · exact (Nat.log2_lt h0).mpr h

/-- No element is wider than the response data (R52). -/
theorem spaceWidth_le (c : Cfg) (sp : Space) : spaceWidth c sp ≤ 32 := by
  obtain ⟨_, _, ⟨_, hheight⟩, _, _, ⟨_, hdepth⟩, _, _, hlevel⟩ := c.ranges
  cases sp with
  | cur => exact show 8 ≤ 32 by decide
  | peak => exact log2_add_one_le (hheight.trans_lt (by decide))
  | flt => exact log2_add_one_le (hlevel.trans_lt (by decide))
  | hist => exact hdepth

section Carries
variable {s : State}

/-- A read inside the space answers the element, zero-extended (R52). -/
theorem readElement_carries (hwf : s.wf = true) {sp : Space} {idx : Byte} (hin : idx.toNat < spaceBound s.cfg sp) :
    ∃ t r, readElement sp idx s = .next t ∧ t.responses = s.responses ++ [r] ∧ statusCode r.status ≠ 3#2 ∧
      r.status = .ok ∧ memRead s.mem sp idx.toNat = some r.data.toNat ∧ r.data.toNat < 2 ^ spaceWidth s.cfg sp := by
  obtain ⟨v, hv⟩ := memRead_of_sized (State.wf_sized hwf) hin
  have hlt : v < 2 ^ spaceWidth s.cfg sp := memRead_lt hwf hv
  have hdata : (zext32 v).toNat = v :=
    Nat.mod_eq_of_lt (hlt.trans_le (Nat.pow_le_pow_right (by decide) (spaceWidth_le s.cfg sp)))
  exact ⟨_, ⟨.ok, zext32 v⟩, readElement_found hin hv, rfl, statusCode_ne_three _, rfl, hdata.symm ▸ hv,
    hdata.symm ▸ hlt⟩

/-- A write inside the space answers OK and 0 (R52). -/
theorem writeElement_carries (hwf : s.wf = true) {sp : Space} {idx : Byte} {v : Nat}
    (hin : idx.toNat < spaceBound s.cfg sp) :
    ∃ t r, writeElement sp idx v s = .next t ∧ t.responses = s.responses ++ [r] ∧ statusCode r.status ≠ 3#2 ∧
      r = ⟨.ok, 0#32⟩ := by
  have hexists : idx.toNat < s.mem.count sp := by rwa [sized_count (State.wf_sized hwf)]
  obtain ⟨m, hm⟩ := Option.isSome_iff_exists.mp ((memWrite_isSome s.mem sp idx.toNat v).mpr hexists)
  exact ⟨_, _, writeElement_found hin hm, rfl, statusCode_ne_three _, rfl⟩

/-- A bulk command answers OK and 0 (R52). -/
theorem updateArrays_carries (hwf : s.wf = true) (f : Cfg → Memory → Memory) :
    ∃ t r, updateArrays f s = .next t ∧ t.responses = s.responses ++ [r] ∧ statusCode r.status ≠ 3#2 ∧
      r = ⟨.ok, 0#32⟩ :=
  ⟨_, _, if_pos (State.wf_sized hwf), rfl, statusCode_ne_three _, rfl⟩

end Carries

/-- Settles O22, by cases on what the word decodes to; the index of an accepted command is inside its space. -/
theorem responsesCarryTheirData : Obligations.ResponsesCarryTheirData := by
  intro s w rest hwf hpending
  rw [step_of_command hpending]
  have hwf' : (advance { s with pending := rest }).wf = true := hwf
  cases hdecode : decode s.cfg w with
  | refused st =>
    exact ⟨_, ⟨st, 0#32⟩, transact_of_refused hdecode, rfl, statusCode_ne_three st, rfl, decode_refused_ne_ok hdecode⟩
  | accepted i =>
    have hindex : i.wellFormed s.cfg = true := ((decode_eq_accepted_iff s.cfg w i).mp hdecode).2
    rw [transact_of_accepted (s := advance { s with pending := rest }) hdecode]
    cases i with
    | wrs ch val => exact writeElement_carries hwf' (of_decide_eq_true hindex)
    | rds ch => exact readElement_carries hwf' (of_decide_eq_true hindex)
    | trk => exact updateArrays_carries hwf' trackAll
    | rdp ch => exact readElement_carries hwf' (of_decide_eq_true hindex)
    | rdf ch => exact readElement_carries hwf' (of_decide_eq_true hindex)
    | wfu => exact updateArrays_carries hwf' scanAll
    | rdw col => exact readElement_carries hwf' (of_decide_eq_true hindex)

end Sys2Proof.Machine
end

section
/-! PROOFS. The command in flight at the ports (spec 30_encoding R45, R119, 70_reset_and_hazards R116). -/

namespace Sys2Proof.Machine

open Sys2Proof

/-- Every transaction gives one response (R54). -/
theorem transact_responses {w : Cmd} {s t : State} (h : transact w s = .next t) :
    ∃ r, t.responses = s.responses ++ [r] := by
  obtain ⟨st, _, hst⟩ | ⟨i, _, hi⟩ := transact_cases w s
  · rw [hst] at h
    cases h
    exact ⟨_, rfl⟩
  · rw [hi] at h
    obtain ⟨r, m, rfl, _⟩ := exec_effect h
    exact ⟨r, rfl⟩

theorem clockEdges_cons {i : PortIn} {p q : Port} (h : clockEdge i p = .next q) (ins : List PortIn) :
    clockEdges (i :: ins) p = clockEdges ins q := by
  simp only [clockEdges, h]

section InFlight
variable {w : Cmd}

/-- While edges are left the command waits, whatever the host presents (R116): an edge that carries it, and fewer edges
after it than are left, leave the block as it is and the command in flight. -/
theorem clockEdges_waiting {left : Nat} {i : PortIn} {ins : List PortIn} {p : Port}
    (hrst : ∀ j ∈ ins, j.rst = false) (hlen : ins.length < left) (hcarry : clockEdge i p = carry left w p) :
    ∃ q k, clockEdges (i :: ins) p = .next q ∧ q.block = p.block ∧ q.phase = .busy k w := by
  induction ins generalizing left i p with
  | nil =>
    obtain ⟨k, rfl⟩ := Nat.exists_eq_add_one.mpr hlen
    exact ⟨_, k, clockEdges_cons (hcarry.trans (carry_wait k w p)) [], rfl, rfl⟩
  | cons j js ih =>
    obtain ⟨k, rfl⟩ := Nat.exists_eq_add_one.mpr (Nat.zero_lt_of_lt hlen)
    rw [clockEdges_cons (hcarry.trans (carry_wait k w p))]
    obtain ⟨hj, hjs⟩ := List.forall_mem_cons.mp hrst
    exact ih hjs (Nat.lt_of_succ_lt_succ hlen) (clockEdge_busy hj rfl)

/-- At the last edge the command takes effect and its response shows. -/
theorem clockEdges_answering {i : PortIn} {ins : List PortIn} {p : Port} {b : State}
    (hrst : ∀ j ∈ ins, j.rst = false) (hcarry : clockEdge i p = carry ins.length w p)
    (hb : transact w (advance p.block) = .next b) :
    ∃ q, clockEdges (i :: ins) p = .next q ∧ q.block = b ∧ q.phase = .responding := by
  induction ins generalizing i p with
  | nil => exact ⟨_, clockEdges_cons (hcarry.trans (carry_complete hb)) [], rfl, rfl⟩
  | cons j js ih =>
    rw [clockEdges_cons (hcarry.trans (carry_wait js.length w p))]
    obtain ⟨hj, hjs⟩ := List.forall_mem_cons.mp hrst
    exact ih hjs (clockEdge_busy hj rfl) hb

end InFlight

/-- Settles O47: the issue edge starts to carry the command with its latency left; it waits, it is answered, and one edge
later the port is idle. -/
theorem portAnswersEveryIssuedCommand : Obligations.PortAnswersEveryIssuedCommand := by
  intro p w ins hwf hidle hrst hlen
  have hissue : clockEdge ⟨false, true, w⟩ p = carry ins.length w p := hlen ▸ clockEdge_issue rfl rfl hidle
  refine ⟨by rw [portOut_idle hidle], fun k hk => ?_, ?_⟩
  · have htake : (ins.take k).length < ins.length := by rwa [List.length_take_of_le hk.le]
    obtain ⟨q, left, hq, hblock, hbusy⟩ :=
      clockEdges_waiting (fun j hj => hrst j (List.mem_of_mem_take hj)) htake hissue
    exact ⟨q, hq, hblock, by rw [portOut_busy hbusy], by rw [portOut_busy hbusy]⟩
  · obtain ⟨b, hb⟩ := transact_completes (s := advance p.block) (State.wf_sized hwf) w
    obtain ⟨r, hr⟩ := transact_responses hb
    obtain ⟨q, hq, rfl, hresponding⟩ := clockEdges_answering hrst hissue hb
    have hlast : q.block.responses.getLast? = some r := by rw [hr, List.getLast?_concat]
    refine ⟨q, _, r, hq, hb, rfl, hr, portOut_responding hresponding hlast, fun i hi => ?_⟩
    have hready := portOut_idle (p := ⟨q.block, .idle, q.cycle + 1⟩) rfl
    exact ⟨_, clockEdge_responded hi hresponding, rfl, by rw [hready], by rw [hready]⟩

end Sys2Proof.Machine
end

section
/-! PROOFS. One element written or read (spec 40_sample_buffer R60, R61, 41_signal_tracker R69, R70, 42_waterfall R83):
its value, the refusal outside its space (20_memory R33), and that nothing else changes. -/

namespace Sys2Proof.Machine

open Sys2Proof

/-- A response, with whatever arrays it leaves, changes nothing else of the state (R52). -/
theorem answered_answer (r : Response) (s : State) (m : Memory) : Answered r s (answer r { s with mem := m }) :=
  ⟨rfl, rfl, rfl, rfl, rfl⟩

/-- In a sized memory every element below the bound can be written (R31). -/
theorem memWrite_of_sized {c : Cfg} {m : Memory} (h : m.sized c = true) {sp : Space} {i : Nat}
    (hi : i < spaceBound c sp) (v : Nat) : ∃ m', memWrite m sp i v = some m' := by
  apply Option.isSome_iff_exists.mp
  rwa [memWrite_isSome, sized_count h]

/-- Settles O24: the write finds its element, and the rules of `memWrite` say what reads see after it. -/
theorem wrsStoresOneSample : Obligations.WrsStoresOneSample := by
  intro s ch val hs
  rw [exec_wrs_eq]
  refine ⟨fun hin => ?_, fun hout => ?_⟩
  · obtain ⟨m, hm⟩ := memWrite_of_sized (sp := .cur) hs hin val.toNat
    have hsame : memRead m .cur ch.toNat = some val.toNat := memRead_memWrite_same hm (fun _ => val.isLt) nofun
    exact ⟨_, writeElement_found hin hm, hsame, fun _ _ hne => memRead_memWrite_other hm hne, answered_answer _ s m⟩
  · exact ⟨_, writeElement_refused hout, rfl, answered_answer _ s s.mem⟩

/-- Each read command keeps the contract of `ReadsElement`, since it is the shared read on its own space: the data is
the element (`readElement_carries`), and a read does nothing but answer (`readElement_repeats`). -/
theorem readsElement_of_exec_eq {i : Instr} {sp : Space} {idx : Byte} {s : State} (hwf : s.wf = true)
    (hexec : exec i s = readElement sp idx s) : ReadsElement i sp idx s := by
  unfold ReadsElement
  rw [hexec]
  refine ⟨fun hin => ?_, fun hout => ?_⟩
  · obtain ⟨t, ⟨_, d⟩, ht, hresponse, _, rfl, hread, hwidth⟩ := readElement_carries hwf hin
    obtain ⟨r, rfl, _⟩ := readElement_repeats ht
    obtain rfl : r = ⟨.ok, d⟩ := by simpa using hresponse
    exact ⟨_, d, ht, hread, hwidth, rfl, answered_answer _ s s.mem⟩
  · exact ⟨_, readElement_refused hout, rfl, answered_answer _ s s.mem⟩

/-- Settles O25. -/
theorem readCommandsReturnTheirElement : Obligations.ReadCommandsReturnTheirElement := fun s idx hwf =>
  ⟨readsElement_of_exec_eq hwf (exec_rds_eq idx s), readsElement_of_exec_eq hwf (exec_rdp_eq idx s),
    readsElement_of_exec_eq hwf (exec_rdf_eq idx s), readsElement_of_exec_eq hwf (exec_rdw_eq idx s)⟩

end Sys2Proof.Machine
end

section
/-! PROOFS. The element functions of the signal tracker (spec 41_signal_tracker R65 to R67): the height, and the rise
and the fall of the two steps. -/

namespace Sys2Proof.Machine

open Sys2Proof

section Height
variable (c : Cfg)

/-- The clamp has a non-negative lower end, so the height is the clamped integer itself (R65). -/
theorem height_cast (s : Byte) :
    (height c s : Int) = max 0 (min (c.spectrumHeight : Int) ((c.heightBasis : Int) - (s.toNat : Int))) :=
  Int.toNat_of_nonneg (le_max_left _ _)

theorem height_eq_ite (s : Byte) :
    height c s = if c.heightBasis ≤ s.toNat then 0
      else if c.spectrumHeight ≤ c.heightBasis - s.toNat then c.spectrumHeight else c.heightBasis - s.toNat := by
  have hcast := height_cast c s
  split
  · omega
  · split <;> omega

/-- A sample at or above HB is quiet: it has no height (R65, R73). -/
theorem height_of_quiet {s : Byte} (h : c.heightBasis ≤ s.toNat) : height c s = 0 := by
  rw [height_eq_ite, if_pos h]

theorem height_anti {s s' : Byte} (h : s.toNat ≤ s'.toNat) : height c s' ≤ height c s := by
  have hs := height_cast c s
  have hs' := height_cast c s'
  omega

end Height

/-- The three ranges at the parameters of this hardware, HB = 95 and SH = 32 (R4, R65). -/
theorem height_thisHardware (s : Byte) :
    height Cfg.thisHardware s = if 95 ≤ s.toNat then 0 else if s.toNat ≤ 63 then 32 else 95 - s.toNat := by
  have hcast : (height Cfg.thisHardware s : Int) = max 0 (min 32 (95 - (s.toNat : Int))) := height_cast _ s
  split
  · omega
  · split <;> omega

/-- Settles O1. -/
theorem heightIsTheClampedDifference : Obligations.HeightIsTheClampedDifference :=
  ⟨fun c s => ⟨height_cast c s, height_eq_ite c s, height_le c s, fun _ h => height_anti c h⟩, height_thisHardware⟩

section PeakStep
variable {p h : Nat}

theorem peakStep_of_le (hrise : p ≤ h) : peakStep p h = h := if_pos hrise

/-- A fall is by 1: the level is above a height, so it is not 0 (R66). -/
theorem peakStep_of_lt (hfall : h < p) : peakStep p h = p - 1 := by
  rw [peakStep, if_neg (Nat.not_le.mpr hfall), if_pos (Nat.zero_lt_of_lt hfall)]

theorem peakStep_eq_ite (p h : Nat) : peakStep p h = if p ≤ h then h else p - 1 := by
  split
  · next hrise => exact peakStep_of_le hrise
  · next hfall => exact peakStep_of_lt (Nat.lt_of_not_le hfall)

/-- Both peak laws in one expression (R71). -/
theorem peakStep_eq_max (p h : Nat) : peakStep p h = max h (p - 1) := by
  obtain hrise | hfall := le_or_gt p h
  · rw [peakStep_of_le hrise, max_eq_left (by omega)]
  · rw [peakStep_of_lt hfall, max_eq_right (by omega)]

end PeakStep

/-- Settles O2. -/
theorem peakStepRisesAtOnceFallsByOne : Obligations.PeakStepRisesAtOnceFallsByOne := by
  intro p h
  refine ⟨peakStep_of_le, fun hfall => ?_, ?_, fun _ => peakStep_le⟩
  · rw [peakStep_of_lt hfall, Nat.sub_add_cancel (Nat.one_le_of_lt hfall)]
  · rw [peakStep_eq_max]
    exact le_max_left h (p - 1)

section FltStep
variable {c : Cfg} {f h : Nat}

theorem fltStep_of_le (hrise : f ≤ h * 2 ^ c.fracBits) : fltStep c f h = h * 2 ^ c.fracBits := if_pos hrise

theorem fltStep_of_lt (hfall : h * 2 ^ c.fracBits < f) : fltStep c f h = f - c.stepQ := if_neg (Nat.not_le.mpr hfall)

/-- With STEPQ = 1 a fall never passes below the new height (R67). -/
theorem mul_le_fltStep (hQ : c.stepQ = 1) (f h : Nat) : h * 2 ^ c.fracBits ≤ fltStep c f h := by
  obtain hrise | hfall := le_or_gt f (h * 2 ^ c.fracBits)
  · exact (fltStep_of_le hrise).ge
  · rw [fltStep_of_lt hfall, hQ]
    exact Nat.le_sub_one_of_lt hfall

end FltStep

/-- Settles O3. -/
theorem floatStepRisesAtOnceFallsByTheStep : Obligations.FloatStepRisesAtOnceFallsByTheStep := by
  intro c f h
  refine ⟨fltStep_of_le, fun hfall => ?_, fun _ hfall => Nat.one_le_of_lt hfall, fun hQ => mul_le_fltStep hQ f h,
    fun hf hh => fltStep_le c hf (Nat.mul_le_mul_right _ hh)⟩
  rw [fltStep_of_lt hfall]
  omega

end Sys2Proof.Machine
end

section
/-! PROOFS. With STEPQ = 1 the floating level stays at or above the peak level (spec 41_signal_tracker R72). -/

namespace Sys2Proof.Machine

open Sys2Proof

/-- On a rise of the peak the floating level is at least the new height. On a fall the peak loses a whole unit, the
floating level one unit of `2 ^ (-FB)`, which is no more. -/
theorem peakStep_mul_le_fltStep {c : Cfg} (hQ : c.stepQ = 1) {p f : Nat} (hpf : p * 2 ^ c.fracBits ≤ f) (h : Nat) :
    peakStep p h * 2 ^ c.fracBits ≤ fltStep c f h := by
  have hunit : 1 ≤ 2 ^ c.fracBits := Nat.one_le_two_pow
  obtain hrise | hfall := le_or_gt p h
  · rw [peakStep_of_le hrise]
    exact mul_le_fltStep hQ f h
  · have hfltFall : h * 2 ^ c.fracBits < f := (Nat.mul_lt_mul_of_pos_right hfall hunit).trans_le hpf
    rw [peakStep_of_lt hfall, fltStep_of_lt hfltFall, hQ, Nat.sub_one_mul]
    exact tsub_le_tsub hpf hunit

/-- Only TRK writes either level, and on each channel it takes both by the same height. -/
theorem CommandEffect.floatCoversPeak {s : State} {i : Instr} {m : Memory} (heff : CommandEffect s.cfg s.mem i m)
    (hQ : s.cfg.stepQ = 1) (hcover : FloatCoversPeak s) : FloatCoversPeak { s with mem := m } := by
  cases heff with
  | unchanged => exact hcover
  | wrs hw =>
    rw [memWrite_cur_eq hw]
    exact hcover
  | trk =>
    intro j p' f' hp' hf'
    obtain ⟨a, p, ha, hp, rfl⟩ := List.getElem?_zipWith_eq_some.mp hp'
    obtain ⟨a', f, ha', hf, rfl⟩ := List.getElem?_zipWith_eq_some.mp hf'
    obtain rfl : a = a' := Option.some.inj (ha.symm.trans ha')
    exact peakStep_mul_le_fltStep hQ (hcover j p f hp hf) (height s.cfg a)
  | wfu => exact hcover

/-- Any of the 2^20 words keeps the floating levels above the peaks, and keeps the configuration. -/
theorem transact_keeps_floatCoversPeak {w : Cmd} {s t : State} (hQ : s.cfg.stepQ = 1) (hcover : FloatCoversPeak s)
    (h : transact w s = .next t) : FloatCoversPeak t ∧ t.cfg.stepQ = 1 := by
  obtain ⟨st, _, hst⟩ | ⟨i, _, hi⟩ := transact_cases w s
  · rw [hst] at h
    cases h
    exact ⟨hcover, hQ⟩
  · rw [hi] at h
    obtain ⟨r, m, rfl, heff⟩ := exec_effect h
    exact ⟨heff.floatCoversPeak hQ hcover, hQ⟩

/-- Settles O37, by cases on the host's move: none, a word, or a reset. -/
theorem stepKeepsFloatingAbovePeak : Obligations.StepKeepsFloatingAbovePeak := by
  intro s t hQ hcover hstep
  change hostMove s = .next t at hstep
  obtain ⟨_, hmove⟩ | ⟨w, rest, _, hmove⟩ | ⟨rest, _, hmove⟩ := hostMove_cases s
  · rw [hmove] at hstep
    cases hstep
    exact ⟨hcover, hQ⟩
  · rw [hmove] at hstep
    exact transact_keeps_floatCoversPeak (s := advance { s with pending := rest }) hQ hcover hstep
  · rw [hmove] at hstep
    cases hstep
    exact ⟨afterReset_floatCoversPeak s.cfg (s.resets + 1) rest, hQ⟩

end Sys2Proof.Machine
end

section
/-! PROOFS. One TRK on every channel (spec 41_signal_tracker R68, R71, R74). -/

namespace Sys2Proof.Machine

open Sys2Proof

/-- On sized arrays TRK completes: it answers 0 and leaves the arrays of one frame (R68, R100). -/
theorem exec_trk_of_sized {s : State} (hs : s.mem.sized s.cfg = true) :
    exec .trk s = .next (respond 0#32 { s with mem := trackAll s.cfg s.mem }) := if_pos hs

/-- Settles O26. -/
theorem trkUpdatesEveryChannel : Obligations.TrkUpdatesEveryChannel := by
  intro s hs
  obtain ⟨_, hpeak, hflt, _⟩ := (sized_iff _ _).mp (trackAll_sized s.cfg s.cfg hs)
  refine ⟨_, exec_trk_of_sized hs, fun i a p f ha hp hf => ⟨?_, ?_⟩, hpeak, hflt, rfl, rfl, answered_answer _ s _⟩
  · rw [← peakStep_eq_ite]
    exact trackAll_peak_getElem? s.cfg s.mem i ha hp
  · exact trackAll_flt_getElem? s.cfg s.mem i ha hf

/-- In a sized memory every channel has a sample. -/
theorem cur_getElem?_of_sized {c : Cfg} {m : Memory} (hs : m.sized c = true) {i : Nat} (hi : i < c.bandwidth) :
    ∃ a, m.cur[i]? = some a := by
  obtain ⟨_, hv⟩ := memRead_of_sized hs (sp := .cur) hi
  obtain ⟨a, ha, _⟩ := Option.map_eq_some_iff.mp hv
  exact ⟨a, ha⟩

/-- Settles O29: the rise is a branch of the peak step; the fall and the consequences are integer facts about its closed
form, the larger of the height and the old level less 1. -/
theorem peakLawsHoldAtEveryFrame : Obligations.PeakLawsHoldAtEveryFrame := by
  intro s hs
  refine ⟨_, exec_trk_of_sized hs, fun i hi => ?_⟩
  obtain ⟨a, ha⟩ := cur_getElem?_of_sized hs hi
  obtain ⟨p, hp⟩ : ∃ p, s.mem.peak[i]? = some p := memRead_of_sized hs (sp := .peak) hi
  have hmax := peakStep_eq_max p (height s.cfg a)
  refine ⟨a, p, _, ha, hp, trackAll_peak_getElem? s.cfg s.mem i ha hp, peakStep_of_le, fun hfall => ?_, ?_, ?_,
    fun _ => hmax, ?_, ?_⟩ <;> omega

end Sys2Proof.Machine
end

section
/-! PROOFS. A channel under quiet samples (spec 41_signal_tracker R73). -/

namespace Sys2Proof.Machine

open Sys2Proof

/-- The word 0x30000 is TRK in every configuration (R48, R56). -/
theorem decode_trkWord (c : Cfg) : decode c 0x30000#20 = .accepted .trk := decode_encode c .trk

/-- A step on the word of TRK is one frame of both trackers. -/
theorem step_trkWord {s : State} {rest : List HostEvent} (hs : s.mem.sized s.cfg = true)
    (hpending : s.pending = .command 0x30000#20 :: rest) :
    step s = .next (respond 0#32 (advance { s with mem := trackAll s.cfg s.mem, pending := rest })) := by
  rw [step_of_command hpending, transact_of_accepted (decode_trkWord _)]
  exact exec_trk_of_sized (s := advance { s with pending := rest }) hs

theorem runSteps_succ {s t : State} (h : step s = .next t) (n : Nat) : runSteps (n + 1) s = runSteps n t := by
  simp only [runSteps, h]

/-- At height 0 the peak step takes off 1, down to 0. -/
theorem peakStep_zero (p : Nat) : peakStep p 0 = p - 1 := by rw [peakStep_eq_max, Nat.zero_max]

/-- At height 0 the floating step takes off STEPQ, down to 0. -/
theorem fltStep_zero (c : Cfg) (f : Nat) : fltStep c f 0 = f - c.stepQ := by
  obtain rfl | hpos := Nat.eq_zero_or_pos f
  · rw [fltStep_of_le (Nat.zero_le _), Nat.zero_mul, Nat.zero_sub]
  · exact fltStep_of_lt (by rwa [Nat.zero_mul])

/-- Each TRK takes 1 off both levels of a quiet channel and keeps its sample, so `n` of them take off `n`. -/
theorem runSteps_trk_of_quiet {i : Nat} {a : Byte} (n : Nat) {s : State} {p f : Nat} (hs : s.mem.sized s.cfg = true)
    (hQ : s.cfg.stepQ = 1) (hpending : s.pending = List.replicate n (.command 0x30000#20)) (ha : s.mem.cur[i]? = some a)
    (hp : s.mem.peak[i]? = some p) (hf : s.mem.flt[i]? = some f) (hquiet : s.cfg.heightBasis ≤ a.toNat) :
    ∃ t, runSteps n s = .next t ∧ t.mem.peak[i]? = some (p - n) ∧ t.mem.flt[i]? = some (f - n) := by
  induction n generalizing s p f with
  | zero => exact ⟨s, rfl, hp, hf⟩
  | succ n ih =>
    have hp' := trackAll_peak_getElem? s.cfg s.mem i ha hp
    have hf' := trackAll_flt_getElem? s.cfg s.mem i ha hf
    rw [height_of_quiet s.cfg hquiet, peakStep_zero] at hp'
    rw [height_of_quiet s.cfg hquiet, fltStep_zero, hQ] at hf'
    rw [runSteps_succ (step_trkWord hs hpending), Nat.add_comm n 1, ← Nat.sub_sub, ← Nat.sub_sub]
    exact ih (trackAll_sized s.cfg s.cfg hs) hQ rfl ha hp' hf' hquiet

/-- Settles O41: in a well-formed state the peak is at most SH and the floating level at most SHQ. -/
theorem quietChannelSettlesExactly : Obligations.QuietChannelSettlesExactly := by
  intro s n i a p f hwf hQ hpending ha hp hf hquiet
  obtain ⟨hs, hpeak, hflt, _⟩ := (wf_iff _ _).mp hwf
  obtain ⟨t, ht, hpt, hft⟩ := runSteps_trk_of_quiet n hs hQ hpending ha hp hf hquiet
  refine ⟨t, ht, hpt, hft, fun hn => ?_, fun hn => ?_⟩
  · rw [hpt, Nat.sub_eq_zero_of_le ((hpeak p (List.mem_of_getElem? hp)).trans hn)]
  · rw [hft, Nat.sub_eq_zero_of_le ((hflt f (List.mem_of_getElem? hf)).trans hn)]

end Sys2Proof.Machine
end

section
/-! PROOFS. The stored floating level and the document's real-valued level (spec 41_signal_tracker R67, R75). -/

namespace Sys2Proof.Machine

open Sys2Proof

/-- The level a stored integer stands for (R13, R75). -/
def levelOf (c : Cfg) (f : Nat) : ℚ := (f : ℚ) / 2 ^ c.fracBits

theorem levelOf_zero (c : Cfg) : levelOf c 0 = 0 := by simp [levelOf]

theorem levelOf_mul (c : Cfg) (h : Nat) : levelOf c (h * 2 ^ c.fracBits) = h := by simp [levelOf]

theorem levelOf_le_iff (c : Cfg) (f h : Nat) : levelOf c f ≤ h ↔ f ≤ h * 2 ^ c.fracBits := by
  rw [levelOf, div_le_iff₀ (by positivity)]
  exact_mod_cast Iff.rfl

/-- The subtraction of naturals saturates, as a difference floored at 0 does. -/
theorem cast_sub_eq_max (f q : Nat) : ((f - q : Nat) : ℚ) = max 0 ((f : ℚ) - q) := by
  obtain hle | hlt := le_or_gt q f
  · rw [Nat.cast_sub hle, max_eq_right (sub_nonneg.mpr (by exact_mod_cast hle))]
  · rw [Nat.sub_eq_zero_of_le hlt.le, Nat.cast_zero, max_eq_left (sub_nonpos.mpr (by exact_mod_cast hlt.le))]

/-- A fall by STEPQ of the stored integer is the real-valued fall by the decay step (R67, R75). -/
theorem levelOf_sub_stepQ (c : Cfg) (f : Nat) : levelOf c (f - c.stepQ) = max 0 (levelOf c f - c.decayStep) := by
  have hscale : (0 : ℚ) ≤ 2 ^ c.fracBits := by positivity
  rw [levelOf, levelOf, Params.decayStep, cast_sub_eq_max, ← max_div_div_right hscale, zero_div, sub_div]

/-- One fixed-point step is one real-valued step (R75). -/
theorem realFloatStep_levelOf (c : Cfg) (f h : Nat) : realFloatStep c (levelOf c f) h = levelOf c (fltStep c f h) := by
  obtain hrise | hfall := le_or_gt f (h * 2 ^ c.fracBits)
  · rw [fltStep_of_le hrise, levelOf_mul, realFloatStep, if_pos ((levelOf_le_iff c f h).mpr hrise)]
  · rw [fltStep_of_lt hfall, levelOf_sub_stepQ, realFloatStep,
      if_neg fun hle => Nat.not_le.mpr hfall ((levelOf_le_iff c f h).mp hle)]

/-- Settles O4: `levelOf` carries the fixed-point run to the real-valued one, and the bound holds at every step. -/
theorem storedLevelsAreTheRealLevels : Obligations.StoredLevelsAreTheRealLevels := by
  intro c hs
  constructor
  · calc levelOf c (hs.foldl (fltStep c) 0)
      _ = hs.foldl (realFloatStep c) (levelOf c 0) := (List.foldl_hom (levelOf c) (realFloatStep_levelOf c)).symm
      _ = hs.foldl (realFloatStep c) 0 := by rw [levelOf_zero]
  · intro hle
    exact List.foldlRecOn (motive := (· ≤ c.maxLevel)) hs (fltStep c) (Nat.zero_le _)
      fun f hf h hmem => fltStep_le c hf (Nat.mul_le_mul_right _ (hle h hmem))

end Sys2Proof.Machine
end

section
/-! PROOFS. The element functions of the waterfall (spec 42_waterfall R80, R81): the threshold, and shift-and-insert as a
number and bit by bit. -/

namespace Sys2Proof.Machine

open Sys2Proof

section Threshold
variable (c : Cfg) (a : Byte)

theorem thr_toNat : (thr c a).toNat = if a.toNat < c.waterfallFloor then 1 else 0 := by
  unfold thr
  split <;> rfl

theorem thr_eq_one_iff : thr c a = 1#1 ↔ a.toNat < c.waterfallFloor := by
  unfold thr
  split <;> simp_all

end Threshold

/-- Settles O5: the first clause is R80's definition, and this hardware has WF = 88. -/
theorem thresholdIsUnsignedAndStrict : Obligations.ThresholdIsUnsignedAndStrict :=
  ⟨fun _ _ => rfl, fun a => (thr_eq_one_iff Cfg.thisHardware a).trans Nat.lt_succ_iff⟩

theorem waterfallDepth_pos (c : Cfg) : 0 < c.waterfallDepth := by
  obtain ⟨_, _, _, _, _, ⟨hpos, _⟩, _⟩ := c.ranges
  exact hpos

/-- A history word fits its container (R6). -/
theorem waterfallDepth_le (c : Cfg) : c.waterfallDepth ≤ 32 := by
  obtain ⟨_, _, _, _, _, ⟨_, hle⟩, _⟩ := c.ranges
  exact hle

section ShiftIn
variable (c : Cfg) (w : HistWord) (b : BitVec 1)

/-- The mask keeps the residue modulo `2 ^ WD`, and so the bit shifted out of the container does not matter (R81). -/
theorem shiftIn_toNat : (shiftIn c w b).toNat = (2 * w.toNat + b.toNat) % 2 ^ c.waterfallDepth := by
  have hdvd : 2 ^ c.waterfallDepth ∣ 2 ^ 32 := Nat.pow_dvd_pow 2 (waterfallDepth_le c)
  calc (shiftIn c w b).toNat
      = (w.toNat <<< 1 % 2 ^ 32 ||| b.toNat % 2 ^ 32) % 2 ^ c.waterfallDepth := by
        simp only [shiftIn, BitVec.toNat_and, BitVec.toNat_or, BitVec.toNat_shiftLeft, BitVec.toNat_setWidth,
          histMask_toNat, Nat.and_two_pow_sub_one_eq_mod]
    _ = (w.toNat <<< 1 ||| b.toNat) % 2 ^ c.waterfallDepth := by
        rw [Nat.or_mod_two_pow, Nat.mod_mod_of_dvd _ hdvd, Nat.mod_mod_of_dvd _ hdvd, ← Nat.or_mod_two_pow]
    _ = (2 * w.toNat + b.toNat) % 2 ^ c.waterfallDepth := by
        rw [← Nat.shiftLeft_add_eq_or_of_lt b.isLt, Nat.shiftLeft_eq, pow_one, Nat.mul_comm]

theorem histMask_getLsbD (k : Nat) : c.histMask.getLsbD k = decide (k < c.waterfallDepth) := by
  rw [← BitVec.testBit_toNat, histMask_toNat, Nat.testBit_two_pow_sub_one]

theorem shiftIn_getLsbD_zero : (shiftIn c w b).getLsbD 0 = b.getLsbD 0 := by
  simp [shiftIn, histMask_getLsbD, waterfallDepth_pos c]

theorem shiftIn_getLsbD_succ {k : Nat} (hk : k + 1 < c.waterfallDepth) :
    (shiftIn c w b).getLsbD (k + 1) = w.getLsbD k := by
  have hcontainer : k + 1 < 32 := hk.trans_le (waterfallDepth_le c)
  simp [-BitVec.getLsbD_eq_getElem, shiftIn, histMask_getLsbD, hk, hcontainer]

theorem shiftIn_getLsbD_of_le {k : Nat} (hk : c.waterfallDepth ≤ k) : (shiftIn c w b).getLsbD k = false := by
  simp [shiftIn, histMask_getLsbD, Nat.not_lt.mpr hk]

end ShiftIn

/-- Two one-bit fields are equal exactly when the bits are. -/
theorem extractLsb'_one_eq_iff {m n : Nat} (v : BitVec m) (w : BitVec n) (j k : Nat) :
    v.extractLsb' j 1 = w.extractLsb' k 1 ↔ v.getLsbD j = w.getLsbD k := by
  rw [BitVec.eq_of_getLsbD_eq_iff]
  simp

section Fields
variable (c : Cfg) (w : HistWord) (b : BitVec 1)

theorem shiftIn_extract_zero : (shiftIn c w b).extractLsb' 0 1 = b := by
  rw [← BitVec.extractLsb'_eq_self (x := b), extractLsb'_one_eq_iff, BitVec.extractLsb'_eq_self]
  exact shiftIn_getLsbD_zero c w b

theorem shiftIn_extract_succ {k : Nat} (hk : k + 1 < c.waterfallDepth) :
    (shiftIn c w b).extractLsb' (k + 1) 1 = w.extractLsb' k 1 :=
  (extractLsb'_one_eq_iff _ _ _ _).mpr (shiftIn_getLsbD_succ c w b hk)

end Fields

/-- Settles O6. -/
theorem shiftInInsertsAtTheLowEnd : Obligations.ShiftInInsertsAtTheLowEnd := fun c w b =>
  ⟨shiftIn_toNat c w b, shiftIn_extract_zero c w b, fun _ hk => shiftIn_getLsbD_succ c w b hk,
    fun _ hk => shiftIn_getLsbD_of_le c w b hk⟩

/-- The new word depends on the low WD-1 bits of the old one alone: the oldest bit leaves no trace (R84). -/
theorem shiftIn_congr {c : Cfg} {w w' : HistWord} (b : BitVec 1)
    (h : ∀ k, k + 2 ≤ c.waterfallDepth → w.getLsbD k = w'.getLsbD k) : shiftIn c w b = shiftIn c w' b := by
  apply BitVec.eq_of_getLsbD_eq
  intro k _
  obtain hhigh | hlow := le_or_gt c.waterfallDepth k
  · rw [shiftIn_getLsbD_of_le c w b hhigh, shiftIn_getLsbD_of_le c w' b hhigh]
  · cases k with
    | zero => rw [shiftIn_getLsbD_zero, shiftIn_getLsbD_zero]
    | succ k => rw [shiftIn_getLsbD_succ c w b hlow, shiftIn_getLsbD_succ c w' b hlow, h k hlow]

end Sys2Proof.Machine
end

section
/-! PROOFS. One scan of the waterfall (spec 42_waterfall R82, R84): what WFU leaves in each column. -/

namespace Sys2Proof.Machine

open Sys2Proof

/-- A scan on every index: it takes the word that is there, and makes none (R82). -/
theorem scanAll_hist_map (c : Cfg) (m : Memory) (x : Nat) :
    (scanAll c m).hist[x]? = m.hist[x]?.map fun w => shiftIn c w (scanBit c m x) := by
  simp [scanAll]

theorem scanBit_of_cur {c : Cfg} {m : Memory} {x : Nat} {a : Byte} (ha : m.cur[chmap c x]? = some a) :
    scanBit c m x = thr c a := by
  simp [scanBit, sampleOf, ha]

/-- On sized arrays WFU completes: it answers 0 and leaves the arrays of one scan (R82, R100). -/
theorem exec_wfu_of_sized {s : State} (hs : s.mem.sized s.cfg = true) :
    exec .wfu s = .next (respond 0#32 { s with mem := scanAll s.cfg s.mem }) := if_pos hs

/-- In a sized memory every column has a word. -/
theorem hist_getElem?_of_sized {c : Cfg} {m : Memory} (hs : m.sized c = true) {x : Nat} (hx : x < c.displayWidth) :
    ∃ w, m.hist[x]? = some w := by
  obtain ⟨_, hv⟩ := memRead_of_sized hs (sp := .hist) hx
  obtain ⟨w, hw, _⟩ := Option.map_eq_some_iff.mp hv
  exact ⟨w, hw⟩

/-- Settles O27: the sample exists because the column map stays inside the channels (R37). -/
theorem wfuShiftsEveryColumn : Obligations.WfuShiftsEveryColumn := by
  intro s hs
  obtain ⟨_, _, _, hlength⟩ := (sized_iff _ _).mp (scanAll_sized s.cfg s.cfg hs)
  refine ⟨_, exec_wfu_of_sized hs, fun x hx => ?_, hlength, rfl, rfl, rfl, answered_answer _ s _⟩
  obtain ⟨a, ha⟩ := cur_getElem?_of_sized hs (chmap_lt s.cfg hx)
  obtain ⟨w, hw⟩ := hist_getElem?_of_sized hs hx
  refine ⟨a, w, _, ha, hw, scanAll_hist_getElem? s.cfg s.mem x hw, ?_⟩
  rw [shiftIn_toNat, scanBit_of_cur ha, thr_toNat]

/-- Scans of equal samples over histories that differ in the oldest bits alone leave the same history (R84). -/
theorem scanAll_hist_congr {c : Cfg} {m m' : Memory} (hs : m.sized c = true) (hs' : m'.sized c = true)
    (hcur : m'.cur = m.cur)
    (h : ∀ (x : Nat) (w w' : HistWord), m.hist[x]? = some w → m'.hist[x]? = some w' →
      ∀ k, k + 2 ≤ c.waterfallDepth → w.getLsbD k = w'.getLsbD k) :
    (scanAll c m').hist = (scanAll c m).hist := by
  obtain ⟨_, _, _, hlength⟩ := (sized_iff _ _).mp hs
  obtain ⟨_, _, _, hlength'⟩ := (sized_iff _ _).mp hs'
  apply List.ext_getElem?
  intro x
  rw [scanAll_hist_map, scanAll_hist_map]
  obtain hin | hout := Nat.lt_or_ge x c.displayWidth
  · obtain ⟨w, hw⟩ := hist_getElem?_of_sized hs hin
    obtain ⟨w', hw'⟩ := hist_getElem?_of_sized hs' hin
    have hbit : scanBit c m' x = scanBit c m x := by simp only [scanBit, sampleOf, hcur]
    rw [hw, hw', Option.map_some, Option.map_some, hbit, shiftIn_congr _ (h x w w' hw hw')]
  · rw [List.getElem?_eq_none (hlength.trans_le hout), List.getElem?_eq_none (hlength'.trans_le hout)]
    rfl

/-- Settles O28. -/
theorem wfuShiftInvariant : Obligations.WfuShiftInvariant := by
  intro s hs
  refine ⟨_, exec_wfu_of_sized hs, fun x a w hw ha => ?_, fun s' hs' hcfg hcur hbits => ?_⟩
  · refine ⟨_, scanAll_hist_getElem? s.cfg s.mem x hw, ?_, fun k hk => shiftIn_getLsbD_succ _ _ _ hk⟩
    rw [shiftIn_extract_zero, scanBit_of_cur ha]
  · refine ⟨_, exec_wfu_of_sized hs', ?_⟩
    change (scanAll s'.cfg s'.mem).hist = (scanAll s.cfg s.mem).hist
    rw [hcfg] at hs' ⊢
    exact scanAll_hist_congr hs hs' hcur hbits

end Sys2Proof.Machine
end

section
/-! PROOFS. What a step does to the history (spec 42_waterfall R85, R86, R88): nothing, one scan, or a reset; and the two
invariants of the history words. -/

namespace Sys2Proof.Machine

open Sys2Proof

/-- WFU scans the history and every other command keeps it (R20). -/
theorem CommandEffect.hist_eq {c : Cfg} {m m' : Memory} {i : Instr} (h : CommandEffect c m i m') :
    m'.hist = if i = .wfu then (scanAll c m).hist else m.hist := by
  cases h with
  | unchanged hread =>
    have hne : i ≠ .wfu := by
      rintro rfl
      exact hread.elim nofun nofun
    rw [if_neg hne]
  | wrs hw => simp [memWrite_cur_eq hw]
  | trk => simp
  | wfu => simp

section BitsAfterStep
variable {s : State} {rest : List HostEvent} (x : Nat) (bits : List (BitVec 1))

theorem bitsAfterStep_of_nil (h : s.pending = []) : bitsAfterStep s x bits = bits := by
  simp only [bitsAfterStep, h]

theorem bitsAfterStep_of_reset (h : s.pending = .reset :: rest) : bitsAfterStep s x bits = [] := by
  simp only [bitsAfterStep, h]

theorem bitsAfterStep_of_command {w : Cmd} (h : s.pending = .command w :: rest) : bitsAfterStep s x bits =
    if decode s.cfg w = .accepted .wfu then bits ++ [scanBit s.cfg s.mem x] else bits := by
  simp only [bitsAfterStep, h]

end BitsAfterStep

/-- The three things a step can do to the history words, with what they insert. -/
theorem step_hist_cases {s t : State} (h : step s = .next t) : t.cfg = s.cfg ∧
    ((t.mem.hist = s.mem.hist ∧ ∀ x bits, bitsAfterStep s x bits = bits) ∨
      (t.mem.hist = (scanAll s.cfg s.mem).hist ∧
        ∀ x bits, bitsAfterStep s x bits = bits ++ [scanBit s.cfg s.mem x]) ∨
      (t.mem.hist = List.replicate s.cfg.displayWidth 0#32 ∧ ∀ x bits, bitsAfterStep s x bits = [])) := by
  change hostMove s = .next t at h
  obtain ⟨hpending, hmove⟩ | ⟨w, rest, hpending, hmove⟩ | ⟨rest, hpending, hmove⟩ := hostMove_cases s <;> rw [hmove] at h
  · cases h
    exact ⟨rfl, .inl ⟨rfl, fun x bits => bitsAfterStep_of_nil x bits hpending⟩⟩
  · obtain ⟨st, hdecode, hst⟩ | ⟨i, hdecode, hi⟩ := transact_cases w (advance { s with pending := rest })
    · rw [hst] at h
      cases h
      refine ⟨rfl, .inl ⟨rfl, fun x bits => ?_⟩⟩
      rw [bitsAfterStep_of_command x bits hpending, if_neg]
      exact hdecode ▸ nofun
    · rw [hi] at h
      obtain ⟨r, m, rfl, heff⟩ := exec_effect h
      refine ⟨rfl, ?_⟩
      have hhist := heff.hist_eq
      have hbits := fun x bits => bitsAfterStep_of_command x bits hpending
      obtain rfl | hne := eq_or_ne i .wfu
      · exact .inr (.inl ⟨hhist, fun x bits => (hbits x bits).trans (if_pos hdecode)⟩)
      · refine .inl ⟨hhist.trans (if_neg hne), fun x bits => (hbits x bits).trans (if_neg fun hwfu => hne ?_)⟩
        exact Decoded.accepted.inj (hdecode.symm.trans hwfu)
  · cases h
    exact ⟨rfl, .inr (.inr ⟨rfl, fun x bits => bitsAfterStep_of_reset x bits hpending⟩)⟩

/-! #### Columns that share a channel (R88) -/

/-- Columns of one channel are given the same bit (R36, R82). -/
theorem scanBit_eq_of_chmap_eq {c : Cfg} {m : Memory} {x y : Nat} (h : chmap c x = chmap c y) :
    scanBit c m x = scanBit c m y := by
  simp only [scanBit, h]

/-- Settles O38: a scan shifts the same bit into equal words, and after a reset all words are 0. -/
theorem stepKeepsSharedColumnsEqual : Obligations.StepKeepsSharedColumnsEqual := by
  intro s t hshared hstep x y hx hy hxy
  obtain ⟨hcfg, hhist⟩ := step_hist_cases hstep
  rw [hcfg] at hx hy hxy
  obtain ⟨hsame, _⟩ | ⟨hscan, _⟩ | ⟨hzero, _⟩ := hhist
  · rw [hsame]
    exact hshared x y hx hy hxy
  · rw [hscan, scanAll_hist_map, scanAll_hist_map, hshared x y hx hy hxy, scanBit_eq_of_chmap_eq hxy]
  · rw [hzero, List.getElem?_replicate_of_lt hx, List.getElem?_replicate_of_lt hy]

/-! #### The last inserted bits (R85, R86) -/

/-- The word `w` holds the last `depth` of `bits` (oldest first), the newest in bit 0, and zeros above.
`HistoryHolds` says this of every column (`historyHolds_iff`). -/
def HoldsLast (depth : Nat) (w : HistWord) (bits : List (BitVec 1)) : Prop :=
  (∀ k, k < min bits.length depth → w.extractLsb' k 1 = bits.getD (bits.length - 1 - k) 0#1) ∧
    ∀ k, min bits.length depth ≤ k → w.getLsbD k = false

theorem historyHolds_iff (s : State) (bits : Nat → List (BitVec 1)) :
    HistoryHolds s bits ↔ ∀ x w, s.mem.hist[x]? = some w → HoldsLast s.cfg.waterfallDepth w (bits x) := Iff.rfl

/-- The zero word holds no bits. -/
theorem holdsLast_zero_nil (depth : Nat) : HoldsLast depth 0#32 [] := by
  simp [HoldsLast]

/-- Shift-and-insert adds the newest bit and drops the oldest one once the word is full (R81, R85). -/
theorem HoldsLast.shiftIn {c : Cfg} {w : HistWord} {bits : List (BitVec 1)} (h : HoldsLast c.waterfallDepth w bits)
    (b : BitVec 1) : HoldsLast c.waterfallDepth (shiftIn c w b) (bits ++ [b]) := by
  obtain ⟨hbits, hzero⟩ := h
  have hlength : (bits ++ [b]).length = bits.length + 1 := List.length_append
  refine ⟨fun k hk => ?_, fun k hk => ?_⟩ <;> rw [hlength] at hk
  · cases k with
    | zero => simp [shiftIn_extract_zero]
    | succ k =>
      have hold : k < min bits.length c.waterfallDepth := by omega
      have hindex : bits.length + 1 - 1 - (k + 1) = bits.length - 1 - k := by omega
      rw [shiftIn_extract_succ c w b (lt_min_iff.mp hk).2, hbits k hold, hlength, hindex]
      exact (List.getD_append bits [b] 0#1 _ (by omega)).symm
  · obtain hhigh | hlow := le_or_gt c.waterfallDepth k
    · exact shiftIn_getLsbD_of_le c w b hhigh
    · cases k with
      | zero => omega
      | succ k => rw [shiftIn_getLsbD_succ c w b hlow, hzero k (by omega)]

/-- Settles O49. -/
theorem stepKeepsHistoryTheInsertedBits : Obligations.StepKeepsHistoryTheInsertedBits := by
  intro s t bits hholds hstep
  rw [historyHolds_iff] at hholds ⊢
  intro x w hw
  obtain ⟨hcfg, hhist⟩ := step_hist_cases hstep
  rw [hcfg]
  obtain ⟨hsame, hbits⟩ | ⟨hscan, hbits⟩ | ⟨hzero, hbits⟩ := hhist <;> rw [hbits]
  · exact hholds x w (hsame ▸ hw)
  · rw [hscan, scanAll_hist_map] at hw
    obtain ⟨w', hw', rfl⟩ := Option.map_eq_some_iff.mp hw
    exact (hholds x w' hw').shiftIn _
  · obtain rfl : w = 0#32 := List.eq_of_mem_replicate (hzero ▸ List.mem_of_getElem? hw)
    exact holdsLast_zero_nil _

end Sys2Proof.Machine
end

section
/-! PROOFS. The history after a run from reset (spec 42_waterfall R85). -/

namespace Sys2Proof.Machine

open Sys2Proof

/-! #### A word as the sum of its bits -/

/-- The residue modulo `2 ^ n` is the sum of the low `n` bits. -/
theorem toNat_mod_eq_sum (w : HistWord) (n : Nat) :
    w.toNat % 2 ^ n = ∑ j ∈ Finset.range n, (w.extractLsb' j 1).toNat * 2 ^ j := by
  induction n with
  | zero => simp [Nat.mod_one]
  | succ n ih =>
    rw [Finset.sum_range_succ, ← ih, Nat.mod_pow_succ, BitVec.extractLsb'_toNat, Nat.shiftRight_eq_div_pow, pow_one,
      Nat.mul_comm (2 ^ n)]

/-- R85's closed form: the `j`-th newest bit counts `2 ^ j`. -/
theorem HoldsLast.toNat_eq_sum {depth : Nat} {w : HistWord} {bits : List (BitVec 1)} (h : HoldsLast depth w bits) :
    w.toNat = ∑ j ∈ Finset.range (min bits.length depth), (bits.getD (bits.length - 1 - j) 0#1).toNat * 2 ^ j := by
  obtain ⟨hbits, hzero⟩ := h
  have hlt : w.toNat < 2 ^ min bits.length depth :=
    Nat.lt_pow_two_of_testBit _ fun k hk => (BitVec.testBit_toNat w).trans (hzero k hk)
  rw [← Nat.mod_eq_of_lt hlt, toNat_mod_eq_sum]
  exact Finset.sum_congr rfl fun j hj => by rw [hbits j (Finset.mem_range.mp hj)]

/-! #### The bits a list of commands inserts -/

/-- Each WFU inserts one bit, and no other command does. -/
theorem insertedBits_length (c : Cfg) (x : Nat) (cur : List Byte) (is : List Instr) :
    (insertedBits c x cur is).length = is.count .wfu := by
  induction is generalizing cur with
  | nil => rfl
  | cons i is ih => cases i <;> simp [insertedBits, ih]

/-- A command keeps the arrays sized. -/
theorem CommandEffect.sized {c : Cfg} {m m' : Memory} {i : Instr} (h : CommandEffect c m i m')
    (hs : m.sized c = true) : m'.sized c = true := by
  cases h with
  | unchanged => exact hs
  | wrs hw => rwa [memWrite_sized hw]
  | trk => exact trackAll_sized c c hs
  | wfu => exact scanAll_sized c c hs

/-- The bits of a list of commands are that of its first command, if it is WFU, and those of the others on the samples it
leaves. A WRS outside the sample buffer leaves the samples as they are (R99). -/
theorem insertedBits_cons {c : Cfg} {m m' : Memory} {i : Instr} (h : CommandEffect c m i m') (hs : m.sized c = true)
    (x : Nat) (is : List Instr) : insertedBits c x m.cur (i :: is) =
      (if i = .wfu then [scanBit c m x] else []) ++ insertedBits c x m'.cur is := by
  cases h with
  | unchanged hkeeps =>
    cases i with
    | wrs ch val =>
      have hout : c.bandwidth ≤ ch.toNat := by simpa [isReadCommand, Instr.wellFormed, Cfg.channelOk] using hkeeps
      obtain ⟨hlength, _⟩ := (sized_iff c m).mp hs
      simp [insertedBits, List.set_eq_of_length_le (hlength.trans_le hout)]
    | wfu => exact hkeeps.elim nofun nofun
    | rds | trk | rdp | rdf | rdw => rfl
  | wrs hw => simp [insertedBits, memWrite_cur_eq hw]
  | trk => rfl
  | wfu => rfl

/-! #### Runs -/

/-- On sized arrays a step on the word of a command completes with that command's effect, which is none if its index is
outside its space. -/
theorem step_encode {s : State} {i : Instr} {rest : List HostEvent} (hs : s.mem.sized s.cfg = true)
    (hpending : s.pending = .command (encode i) :: rest) :
    ∃ t, step s = .next t ∧ t.cfg = s.cfg ∧ t.pending = rest ∧ CommandEffect s.cfg s.mem i t.mem := by
  rw [step_of_command hpending]
  have hdecode := decode_encode s.cfg i
  split at hdecode
  · obtain ⟨t, ht⟩ := exec_completes (s := advance { s with pending := rest }) hs i
    obtain ⟨r, m, rfl, heff⟩ := exec_effect ht
    exact ⟨_, (transact_of_accepted (s := advance { s with pending := rest }) hdecode).trans ht, rfl, rfl, heff⟩
  · next hout =>
    exact ⟨_, transact_of_refused (s := advance { s with pending := rest }) hdecode, rfl, rfl,
      .unchanged (.inr (Bool.eq_false_iff.mpr hout))⟩

/-- The word of a command inserts a bit exactly when the command is WFU. -/
theorem bitsAfterStep_encode {s : State} {i : Instr} {rest : List HostEvent}
    (hpending : s.pending = .command (encode i) :: rest) (x : Nat) (bits : List (BitVec 1)) :
    bitsAfterStep s x bits = bits ++ if i = .wfu then [scanBit s.cfg s.mem x] else [] := by
  have hwfu : decode s.cfg (encode i) = .accepted .wfu ↔ i = .wfu := by
    rw [decode_eq_accepted_iff, select_encode, Option.some.injEq]
    exact and_iff_left rfl
  rw [bitsAfterStep_of_command x bits hpending]
  simp only [hwfu]
  split <;> simp

/-- A run of commands on sized arrays completes, and its bits follow those the history words held before. -/
theorem runSteps_historyHolds (is : List Instr) {s : State} {bits : Nat → List (BitVec 1)}
    (hs : s.mem.sized s.cfg = true) (hpending : s.pending = program is) (hholds : HistoryHolds s bits) :
    ∃ t, runSteps is.length s = .next t ∧ t.cfg = s.cfg ∧ t.mem.sized t.cfg = true ∧
      HistoryHolds t fun x => bits x ++ insertedBits s.cfg x s.mem.cur is := by
  induction is generalizing s bits with
  | nil => exact ⟨s, rfl, rfl, hs, by simpa [insertedBits] using hholds⟩
  | cons i is ih =>
    obtain ⟨u, hu, hcfg, hrest, heff⟩ := step_encode hs hpending
    have hbits (x : Nat) : bitsAfterStep s x (bits x) ++ insertedBits u.cfg x u.mem.cur is =
        bits x ++ insertedBits s.cfg x s.mem.cur (i :: is) := by
      rw [bitsAfterStep_encode hpending, insertedBits_cons heff hs, hcfg, List.append_assoc]
    obtain ⟨t, ht, hcfgt, hst, hholdst⟩ :=
      ih (hcfg ▸ heff.sized hs) hrest (stepKeepsHistoryTheInsertedBits s u bits hholds hu)
    simp only [hbits] at hholdst
    exact ⟨t, (runSteps_succ hu is.length).trans ht, hcfgt.trans hcfg, hst, hholdst⟩

/-- After a reset the history words hold no bits (R111). -/
theorem afterReset_historyHolds (c : Cfg) (epoch : Nat) (pending : List HostEvent) :
    HistoryHolds (State.afterReset c epoch pending) fun _ => [] := by
  intro x w hw
  obtain rfl : w = 0#32 := List.eq_of_mem_replicate (List.mem_of_getElem? hw)
  exact holdsLast_zero_nil _

/-- Settles O42: the run from reset has inserted the bits of its own commands and no others. -/
theorem historyHoldsTheLastInsertedBits : Obligations.HistoryHoldsTheLastInsertedBits := by
  intro c epoch is
  obtain ⟨t, ht, hcfg, hst, hholds⟩ := runSteps_historyHolds is (s := State.afterReset c epoch (program is))
    (State.wf_sized (Memory.afterReset_wf c epoch)) rfl (afterReset_historyHolds c epoch (program is))
  rw [historyHolds_iff, hcfg] at hholds
  rw [hcfg] at hst
  refine ⟨t, ht, fun x hx => ?_⟩
  obtain ⟨w, hw⟩ := hist_getElem?_of_sized hst hx
  have hlast : HoldsLast c.waterfallDepth w (insertedBits c x (Memory.afterReset c epoch).cur is) := hholds x w hw
  exact ⟨w, _, hw, rfl, insertedBits_length c x _ is, hlast.toNat_eq_sum, hlast⟩

end Sys2Proof.Machine
end

section
/-! PROOFS. The circular row memory (spec 42_waterfall R87, 10_state R19). -/

namespace Sys2Proof.Machine

open Sys2Proof

theorem ring_sized_iff (c : Cfg) (r : Ring) : r.sized c = true ↔
    r.rows.length = c.waterfallDepth ∧ (∀ row ∈ r.rows, row.length = c.displayWidth) ∧ r.ptr < c.waterfallDepth := by
  simp [Ring.sized, and_assoc]

/-- A zeroed ring has the shape of R87. -/
theorem zeroRing_sized (c : Cfg) :
    Ring.sized c ⟨List.replicate c.waterfallDepth (List.replicate c.displayWidth 0#1), 0⟩ = true := by
  simp [ring_sized_iff, waterfallDepth_pos c]

/-- A zeroed ring holds the zero history. -/
theorem zeroRing_holds (c : Cfg) :
    Ring.Holds c ⟨List.replicate c.waterfallDepth (List.replicate c.displayWidth 0#1), 0⟩
      (List.replicate c.displayWidth 0#32) := by
  intro x w hw k _
  obtain rfl : w = 0#32 := List.eq_of_mem_replicate (List.mem_of_getElem? hw)
  have hx : x < c.displayWidth := by simpa using (List.getElem?_eq_some_iff.mp hw).1
  have hrow : (c.waterfallDepth - 1 - k) % c.waterfallDepth < c.waterfallDepth := Nat.mod_lt _ (waterfallDepth_pos c)
  simp [Ring.bit, List.getD_eq_getElem?_getD, hx, hrow]

/-! #### The row of each age -/

/-- The row that holds the bits of age `k` when the pointer is at row `ptr` (R87). `ring_bit_eq` ties it to `Ring.bit`. -/
def ringRow (depth ptr k : Nat) : Nat := (ptr + depth - 1 - k) % depth

theorem ring_bit_eq (c : Cfg) (r : Ring) (x k : Nat) :
    r.bit c x k = (r.rows.getD (ringRow c.waterfallDepth r.ptr k) []).getD x 0#1 := rfl

section Rows
variable {depth ptr k : Nat}

/-- Counting back from the pointer wraps around once at most. -/
theorem ringRow_eq_ite (hptr : ptr < depth) (hk : k < depth) :
    ringRow depth ptr k = if k < ptr then ptr - 1 - k else ptr + depth - 1 - k := by
  unfold ringRow
  split
  · have hwrap : ptr + depth - 1 - k = ptr - 1 - k + depth := by omega
    rw [hwrap, Nat.add_mod_right, Nat.mod_eq_of_lt (by omega)]
  · exact Nat.mod_eq_of_lt (by omega)

theorem succ_mod_eq_ite (hptr : ptr < depth) : (ptr + 1) % depth = if ptr + 1 = depth then 0 else ptr + 1 := by
  split
  · next hlast => rw [hlast, Nat.mod_self]
  · exact Nat.mod_eq_of_lt (by omega)

/-- After a scan the newest row is the one the pointer was at. -/
theorem ringRow_next_zero (hptr : ptr < depth) : ringRow depth ((ptr + 1) % depth) 0 = ptr := by
  rw [ringRow_eq_ite (Nat.mod_lt _ (by omega)) (by omega), succ_mod_eq_ite hptr]
  split_ifs <;> omega

/-- After a scan every row is older by 1. -/
theorem ringRow_next_succ (hptr : ptr < depth) (hk : k + 1 < depth) :
    ringRow depth ((ptr + 1) % depth) (k + 1) = ringRow depth ptr k := by
  rw [ringRow_eq_ite (Nat.mod_lt _ (by omega)) hk, ringRow_eq_ite hptr (by omega), succ_mod_eq_ite hptr]
  split_ifs <;> omega

/-- The row a scan overwrites is the oldest one. -/
theorem ringRow_ne_ptr (hptr : ptr < depth) (hk : k + 1 < depth) : ringRow depth ptr k ≠ ptr := by
  rw [ringRow_eq_ite hptr (by omega)]
  split <;> omega

end Rows

/-! #### One scan -/

section Scan
variable {c : Cfg} {r : Ring} (m : Memory)

/-- A scan keeps the ring's shape: it replaces one row by another of DW bits and moves the pointer to the next row. -/
theorem ringScan_sized (h : r.sized c = true) : (r.scan c m).sized c = true := by
  obtain ⟨hrows, hwidth, _⟩ := (ring_sized_iff c r).mp h
  refine (ring_sized_iff c _).mpr ⟨List.length_set.trans hrows, fun row hrow => ?_, Nat.mod_lt _ (waterfallDepth_pos c)⟩
  obtain hold | rfl := List.mem_or_eq_of_mem_set hrow
  · exact hwidth row hold
  · simp

/-- The newest bits are those of the scan. -/
theorem ringScan_bit_zero (h : r.sized c = true) {x : Nat} (hx : x < c.displayWidth) :
    (r.scan c m).bit c x 0 = scanBit c m x := by
  obtain ⟨hrows, _, hptr⟩ := (ring_sized_iff c r).mp h
  have hrow : r.ptr < r.rows.length := hptr.trans_eq hrows.symm
  rw [ring_bit_eq]
  simp [Ring.scan, ringRow_next_zero hptr, List.getD_eq_getElem?_getD, hrow, hx]

/-- Every other bit is the bit one younger from before the scan: its row is not overwritten. -/
theorem ringScan_bit_succ (h : r.sized c = true) (x : Nat) {k : Nat} (hk : k + 1 < c.waterfallDepth) :
    (r.scan c m).bit c x (k + 1) = r.bit c x k := by
  obtain ⟨_, _, hptr⟩ := (ring_sized_iff c r).mp h
  have hkept := (ringRow_ne_ptr hptr hk).symm
  rw [ring_bit_eq, ring_bit_eq]
  simp [Ring.scan, ringRow_next_succ hptr hk, List.getD_eq_getElem?_getD, List.getElem?_set_ne hkept]

/-- The ring follows the history words through a scan: shift-and-insert in each column on their side, one row overwritten
on its own. -/
theorem ringScan_holds (hs : m.sized c = true) (h : r.sized c = true) (hholds : r.Holds c m.hist) :
    (r.scan c m).Holds c (scanAll c m).hist := by
  intro x w' hw' k hk
  rw [scanAll_hist_map] at hw'
  obtain ⟨w, hw, rfl⟩ := Option.map_eq_some_iff.mp hw'
  obtain ⟨_, _, _, hlength⟩ := (sized_iff c m).mp hs
  have hx : x < c.displayWidth := hlength ▸ (List.getElem?_eq_some_iff.mp hw).1
  cases k with
  | zero => rw [shiftIn_extract_zero, ringScan_bit_zero m h hx]
  | succ k => rw [shiftIn_extract_succ c w _ hk, ringScan_bit_succ m h x hk, hholds x w hw k (Nat.lt_of_succ_lt hk)]

end Scan

/-- In a well-formed state RDW of a column answers its history word, and that has no bit at or above WD (R83). -/
theorem rdw_answers_hist {s : State} {col : Byte} (hwf : s.wf = true) (hcol : col.toNat < s.cfg.displayWidth) :
    ∃ t d, exec (.rdw col) s = .next t ∧ s.mem.hist[col.toNat]? = some d ∧ t.mem = s.mem ∧ Answered ⟨.ok, d⟩ s t ∧
      ∀ k, s.cfg.waterfallDepth ≤ k → BitVec.getLsbD d k = false := by
  obtain ⟨_, _, _, hread, _⟩ := readCommandsReturnTheirElement s col hwf
  obtain ⟨t, d, ht, hd, hlt, hmem, hanswered⟩ := hread hcol
  obtain ⟨w, hw, hwd⟩ := Option.map_eq_some_iff.mp hd
  obtain rfl : w = d := BitVec.eq_of_toNat_eq hwd
  refine ⟨t, w, ht, hw, hmem, hanswered, fun k hk => ?_⟩
  rw [← BitVec.testBit_toNat]
  exact Nat.testBit_lt_two_pow (hlt.trans_le (Nat.pow_le_pow_right Nat.two_pos hk))

/-- Settles O45: at reset, through every scan, and in what RDW answers. -/
theorem circularMemoryIsUnobservable : Obligations.CircularMemoryIsUnobservable := by
  refine ⟨fun c => ⟨zeroRing_sized c, zeroRing_holds c⟩,
    fun c m r hs hr hholds => ⟨ringScan_sized m hr, ringScan_holds m hs hr hholds⟩, fun s r col hwf _ hholds hcol => ?_⟩
  obtain ⟨t, d, ht, hd, hmem, hanswered, hzero⟩ := rdw_answers_hist hwf hcol
  exact ⟨t, d, ht, hmem, hanswered, hholds col.toNat d hd, hzero⟩

end Sys2Proof.Machine
end

section
/-! PROOFS. Refused command words (spec 60_exceptions R96 to R99): their two causes, and what the step of one leaves. -/

namespace Sys2Proof.Machine

open Sys2Proof

/-- A word that selects no command is refused before any index is looked at (R96, R98). -/
theorem decode_of_select_eq_none (c : Cfg) {w : Cmd} (h : select w = none) : decode c w = .refused .eBadOp := by
  simp only [decode, h]

/-- Settles O15: the words of R96 and R98 select no command, and those of R97 encode a command whose index is the bound
of its space or above. -/
theorem wordsOfTheSpecAreRefused : Obligations.WordsOfTheSpecAreRefused := by
  unfold Obligations.WordsOfTheSpecAreRefused
  have badOp {w : Cmd} (h : select w = none) := decode_of_select_eq_none Cfg.thisHardware h
  have badIdx (i : Instr) (h : i.wellFormed Cfg.thisHardware = false) :=
    (decodeOfEncodeIsTheCommand Cfg.thisHardware i).2 h
  simp only [List.all_cons, List.all_nil, Bool.and_true, Bool.and_eq_true, decide_eq_true_eq]
  exact ⟨badOp rfl, badOp rfl, badOp rfl, badOp rfl, badOp rfl, badOp rfl, badIdx (.wrs 88 0) rfl,
    badIdx (.wrs 255 90) rfl, badIdx (.rds 88) rfl, badIdx (.rdp 88) rfl, badIdx (.rdf 88) rfl, badIdx (.rdw 128) rfl,
    badOp rfl⟩

/-- A refusal marks the run as gone wrong. -/
theorem goneWrong_refuse {st : Status} (h : st ≠ .ok) (s : State) : goneWrong (refuse st s) = true := by
  simp [goneWrong, h]

/-- The step of a refused word is the refusal alone: the word is taken, the position advances, and the status is
answered (R54). -/
theorem step_of_refused {s : State} {w : Cmd} {rest : List HostEvent} {st : Status}
    (hpending : s.pending = .command w :: rest) (hdecode : decode s.cfg w = .refused st) :
    step s = .next (refuse st (advance { s with pending := rest })) := by
  rw [step_of_command hpending]
  exact transact_of_refused hdecode

/-- Settles O19: the rules of `refuse` and `advance` give the state after the refusal; what it runs next is O18 in that
state, whose configuration is unchanged. -/
theorem refusedWordChangesNothing : Obligations.RefusedWordChangesNothing := by
  intro s w rest st hpending hdecode
  have hst : st ≠ .ok := decode_refused_ne_ok hdecode
  exact ⟨_, step_of_refused hpending hdecode, hst, rfl, rfl, rfl, rfl, rfl, rfl, goneWrong_refuse hst _,
    fun w' rest' i hnext haccepted => stepRunsTheDecodedCommand _ w' rest' i hnext haccepted⟩

end Sys2Proof.Machine
end

section
/-! PROOFS. Reset between commands and at the ports (spec 10_state R21, 70_reset_and_hazards R110 to R112). -/

namespace Sys2Proof.Machine

open Sys2Proof

/-- A reset between commands takes the host's move and leaves the reset state (R111). -/
theorem step_of_reset {s : State} {rest : List HostEvent} (h : s.pending = .reset :: rest) :
    step s = .next (applyReset { s with pending := rest }) := by
  simp only [step, hostMove, h]

/-- The arrays the trackers and the waterfall keep are all 0 after a reset (R21). -/
theorem afterReset_cleared (c : Cfg) (epoch : Nat) : (∀ p ∈ (Memory.afterReset c epoch).peak, p = 0) ∧
    (∀ f ∈ (Memory.afterReset c epoch).flt, f = 0) ∧ ∀ w ∈ (Memory.afterReset c epoch).hist, w = 0#32 :=
  ⟨fun _ => List.eq_of_mem_replicate, fun _ => List.eq_of_mem_replicate, fun _ => List.eq_of_mem_replicate⟩

theorem afterReset_sized (c : Cfg) (epoch : Nat) : (Memory.afterReset c epoch).sized c = true :=
  ((wf_iff c _).mp (Memory.afterReset_wf c epoch)).1

/-- Settles O33: the arrays after the step are those of the next reset, which look at the configuration and the reset
count alone. -/
theorem resetClearsTrackersAndHistory : Obligations.ResetClearsTrackersAndHistory := by
  intro s rest hpending
  obtain ⟨hpeak, hflt, hhist⟩ := afterReset_cleared s.cfg (s.resets + 1)
  refine ⟨_, step_of_reset hpending, afterReset_sized s.cfg (s.resets + 1), hpeak, hflt, hhist,
    fun i hi => afterReset_cur_getElem? s.cfg (s.resets + 1) hi, rfl, rfl, rfl, rfl,
    fun s' rest' hpending' hcfg hresets => ?_⟩
  refine ⟨_, step_of_reset hpending', ?_⟩
  rw [applyReset_mem, applyReset_mem, hcfg, hresets]

/-- Settles O46: `rst` wins in every phase, and the port it leaves is idle, so it is ready and shows no response. -/
theorem portResetAbandonsTheCommand : Obligations.PortResetAbandonsTheCommand := by
  intro i p hrst
  obtain ⟨hpeak, hflt, hhist⟩ := afterReset_cleared p.block.cfg (p.block.resets + 1)
  have hidle := portOut_idle (p := ⟨applyReset p.block, .idle, p.cycle + 1⟩) rfl
  refine ⟨_, clockEdge_reset hrst p, hpeak, hflt, hhist, afterReset_sized _ _,
    fun k hk => afterReset_cur_getElem? p.block.cfg (p.block.resets + 1) hk, rfl, by rw [hidle], by rw [hidle],
    fun p' hcfg hresets => ?_⟩
  refine ⟨_, clockEdge_reset hrst p', ?_, rfl⟩
  rw [applyReset_mem, applyReset_mem, hcfg, hresets]

end Sys2Proof.Machine
end

section
/-! PROOFS. TRK and WFU in either order (spec 70_reset_and_hazards R115). -/

namespace Sys2Proof.Machine

open Sys2Proof

/-- One frame of the trackers and one scan read the samples alone, which neither writes, and write different arrays. -/
theorem scanAll_trackAll (c : Cfg) (m : Memory) : scanAll c (trackAll c m) = trackAll c (scanAll c m) := rfl

/-- Settles O30. -/
theorem trackerAndWaterfallCommute : Obligations.TrackerAndWaterfallCommute := by
  intro s hs
  refine ⟨_, _, _, exec_trk_of_sized hs, exec_wfu_of_sized (trackAll_sized s.cfg s.cfg hs), exec_wfu_of_sized hs, ?_⟩
  simp only [respond_cfg, respond_mem, scanAll_trackAll]
  exact exec_trk_of_sized (scanAll_sized s.cfg s.cfg hs)

end Sys2Proof.Machine
end

section
/-! PROOFS. Runs of well-formed commands as functions of the arrays (spec 30_encoding R52, R54): the arrays a command
leaves and the number it answers, and what a run of them leaves and answers. -/

namespace Sys2Proof.Machine

open Sys2Proof

/-! #### One command -/

/-- The arrays a well-formed command leaves (R60, R68, R82). `exec_of_wellFormed` ties it to `exec`. -/
def effectOf (c : Cfg) (m : Memory) : Instr → Memory
  | .wrs ch val => { m with cur := m.cur.set ch.toNat val }
  | .trk => trackAll c m
  | .wfu => scanAll c m
  | .rds _ | .rdp _ | .rdf _ | .rdw _ => m

/-- The number a well-formed command answers: an element, or 0 (R52). `exec_of_wellFormed` ties it to `exec`. -/
def answerOf (m : Memory) : Instr → Option Nat
  | .rds ch => memRead m .cur ch.toNat
  | .rdp ch => memRead m .peak ch.toNat
  | .rdf ch => memRead m .flt ch.toNat
  | .rdw col => memRead m .hist col.toNat
  | .wrs _ _ | .trk | .wfu => some 0

section Command
variable {s : State}

theorem readElement_of_sized (hs : s.mem.sized s.cfg = true) {sp : Space} {idx : Byte}
    (hin : idx.toNat < spaceBound s.cfg sp) :
    ∃ v, memRead s.mem sp idx.toNat = some v ∧ readElement sp idx s = .next (respond (zext32 v) s) := by
  obtain ⟨v, hv⟩ := memRead_of_sized hs hin
  exact ⟨v, hv, readElement_found hin hv⟩

/-- On sized arrays a well-formed command answers OK with its number and leaves its arrays (R54). -/
theorem exec_of_wellFormed (hs : s.mem.sized s.cfg = true) {i : Instr} (hi : i.wellFormed s.cfg = true) :
    ∃ v, answerOf s.mem i = some v ∧ exec i s = .next (respond (zext32 v) { s with mem := effectOf s.cfg s.mem i }) := by
  cases i with
  | wrs ch val =>
    have hin : ch.toNat < spaceBound s.cfg .cur := of_decide_eq_true hi
    obtain ⟨m, hm⟩ := memWrite_of_sized hs hin val.toNat
    have hstored : m = effectOf s.cfg s.mem (.wrs ch val) := by simp [memWrite_cur_eq hm, effectOf]
    exact ⟨0, rfl, hstored ▸ writeElement_found hin hm⟩
  | trk => exact ⟨0, rfl, exec_trk_of_sized hs⟩
  | wfu => exact ⟨0, rfl, exec_wfu_of_sized hs⟩
  | rds ch => exact readElement_of_sized hs (sp := .cur) (of_decide_eq_true hi)
  | rdp ch => exact readElement_of_sized hs (sp := .peak) (of_decide_eq_true hi)
  | rdf ch => exact readElement_of_sized hs (sp := .flt) (of_decide_eq_true hi)
  | rdw col => exact readElement_of_sized hs (sp := .hist) (of_decide_eq_true hi)

/-- The step on the word of a well-formed command. -/
theorem step_of_wellFormed (hs : s.mem.sized s.cfg = true) {i : Instr} (hi : i.wellFormed s.cfg = true)
    {rest : List HostEvent} (hpending : s.pending = .command (encode i) :: rest) :
    ∃ v, answerOf s.mem i = some v ∧
      step s = .next (respond (zext32 v) (advance { s with mem := effectOf s.cfg s.mem i, pending := rest })) := by
  rw [stepRunsTheDecodedCommand s _ rest i hpending ((decodeOfEncodeIsTheCommand s.cfg i).1 hi)]
  exact exec_of_wellFormed (s := { s with pending := rest, pos := s.pos + 1 }) hs hi

end Command

/-! #### What a list of commands leaves in the arrays -/

section Fold
variable {c : Cfg} {m : Memory}

theorem effectOf_sized (h : m.sized c = true) (i : Instr) : (effectOf c m i).sized c = true := by
  cases i with
  | wrs ch val => simpa [effectOf, sized_iff] using h
  | trk => exact trackAll_sized c c h
  | wfu => exact scanAll_sized c c h
  | rds | rdp | rdf | rdw => exact h

theorem foldl_effectOf_sized (is : List Instr) (h : m.sized c = true) : (is.foldl (effectOf c) m).sized c = true := by
  induction is generalizing m with
  | nil => exact h
  | cons i is ih => exact ih (effectOf_sized h i)

/-- Reads leave the arrays as they are (R34). -/
theorem foldl_effectOf_reads {is : List Instr} (h : ∀ i ∈ is, isReadCommand i = true) :
    is.foldl (effectOf c) m = m := by
  induction is with
  | nil => rfl
  | cons i is ih =>
    obtain ⟨hi, his⟩ := List.forall_mem_cons.mp h
    have hkeeps : effectOf c m i = m := by
      cases i with
      | wrs | trk | wfu => cases hi
      | rds | rdp | rdf | rdw => rfl
    rw [List.foldl_cons, hkeeps, ih his]

/-- Without TRK and WFU the levels and the history stay (R20, R122). -/
theorem foldl_effectOf_keeps {is : List Instr} (h : ∀ i ∈ is, i ≠ .trk ∧ i ≠ .wfu) :
    (is.foldl (effectOf c) m).peak = m.peak ∧ (is.foldl (effectOf c) m).flt = m.flt ∧
      (is.foldl (effectOf c) m).hist = m.hist := by
  induction is generalizing m with
  | nil => exact ⟨rfl, rfl, rfl⟩
  | cons i is ih =>
    obtain ⟨⟨htrk, hwfu⟩, his⟩ := List.forall_mem_cons.mp h
    cases i with
    | trk => exact absurd rfl htrk
    | wfu => exact absurd rfl hwfu
    | wrs | rds | rdp | rdf | rdw => exact ih his

/-- The sample of a channel is that of the last WRS to it, or the old one (R38, R60). -/
theorem foldl_effectOf_cur {i : Nat} (is : List Instr) (hi : i < m.cur.length) :
    (is.foldl (effectOf c) m).cur[i]? = (sweptSample i is).or m.cur[i]? := by
  induction is generalizing m with
  | nil => rfl
  | cons j is ih =>
    cases j with
    | wrs ch val =>
      have hlength : i < (m.cur.set ch.toNat val).length := by rwa [List.length_set]
      have hset : (m.cur.set ch.toNat val)[i]? = (if ch.toNat = i then some val else none).or m.cur[i]? := by
        rw [List.getElem?_set]
        split
        · next h => simp [h ▸ hi]
        · rfl
      rw [sweptSample_wrs_cons, Option.or_assoc, ← hset]
      exact ih hlength
    | trk | wfu | rds | rdp | rdf | rdw => exact ih hi

end Fold

/-! #### Runs -/

/-- A run of well-formed commands completes with the arrays of all of them, and each answers OK with its number in the
arrays it finds (R54, R120). -/
theorem runSteps_program (is : List Instr) {s : State} (hs : s.mem.sized s.cfg = true)
    (hwf : ∀ i ∈ is, i.wellFormed s.cfg = true) (hpending : s.pending = program is) :
    ∃ t rs, runSteps is.length s = .next t ∧ t.pending = [] ∧ t.mem = is.foldl (effectOf s.cfg) s.mem ∧
      t.responses = s.responses ++ rs ∧ rs.length = is.length ∧ (∀ r ∈ rs, r.status = .ok) ∧
      ∀ j i, is[j]? = some i → ∃ v, answerOf ((is.take j).foldl (effectOf s.cfg) s.mem) i = some v ∧
        rs[j]? = some ⟨.ok, zext32 v⟩ := by
  induction is generalizing s with
  | nil => exact ⟨s, [], rfl, hpending, rfl, (List.append_nil _).symm, rfl, nofun, nofun⟩
  | cons i is ih =>
    obtain ⟨hi, his⟩ := List.forall_mem_cons.mp hwf
    obtain ⟨v, hv, hstep⟩ := step_of_wellFormed hs hi hpending
    obtain ⟨t, rs, ht, hdone, hmem, hresponses, hlength, hok, hanswers⟩ := ih
      (s := respond (zext32 v) (advance { s with mem := effectOf s.cfg s.mem i, pending := program is }))
      (effectOf_sized hs i) his rfl
    refine ⟨t, ⟨.ok, zext32 v⟩ :: rs, (runSteps_succ hstep is.length).trans ht, hdone, hmem, by simp [hresponses],
      congrArg (· + 1) hlength, List.forall_mem_cons.mpr ⟨rfl, hok⟩, fun j k hk => ?_⟩
    cases j with
    | zero =>
      cases hk
      exact ⟨v, hv, rfl⟩
    | succ j => exact hanswers j k hk

/-- Settles O50: RDP, RDF and RDW read arrays that no command of the run changes; RDS reads what the WRS before it
left. -/
theorem readsBetweenUpdatesSeeTheirFrame : Obligations.ReadsBetweenUpdatesSeeTheirFrame := by
  intro s is hwf hpending his
  have hs := State.wf_sized hwf
  obtain ⟨t, rs, ht, _, hmem, hresponses, hlength, _, hanswers⟩ :=
    runSteps_program is hs (fun i hi => (his i hi).1) hpending
  obtain ⟨hpeak, hflt, hhist⟩ := foldl_effectOf_keeps (c := s.cfg) (m := s.mem) fun i hi => (his i hi).2
  refine ⟨t, rs, ht, hresponses, hlength, hmem ▸ hpeak, hmem ▸ hflt, hmem ▸ hhist, fun j idx => ?_⟩
  obtain ⟨hpeakj, hfltj, hhistj⟩ := foldl_effectOf_keeps (c := s.cfg) (m := s.mem)
    fun i hi => (his i (List.mem_of_mem_take (i := j) hi)).2
  refine ⟨fun hj => ?_, fun hj => ?_, fun hj => ?_, fun hj => ?_⟩ <;> obtain ⟨v, hv, hr⟩ := hanswers j _ hj
  · exact ⟨v, by simpa only [answerOf, memRead, hpeakj] using hv, hr⟩
  · exact ⟨v, by simpa only [answerOf, memRead, hfltj] using hv, hr⟩
  · exact ⟨v, by simpa only [answerOf, memRead, hhistj] using hv, hr⟩
  · have hidx : idx.toNat < s.mem.cur.length := by
      rw [((sized_iff _ _).mp hs).1]
      exact of_decide_eq_true (his _ (List.mem_of_getElem? hj)).1
    obtain ⟨a, ha, rfl⟩ := Option.map_eq_some_iff.mp hv
    rw [foldl_effectOf_cur _ hidx] at ha
    exact ⟨a, ha, zext32_toNat a ▸ hr⟩

end Sys2Proof.Machine
end

section
/-! PROOFS. One frame (spec 40_sample_buffer R62, 70_reset_and_hazards R113, R114): a complete sweep, both updates, and
reads. -/

namespace Sys2Proof.Machine

open Sys2Proof

/-! #### The sweep -/

section Sweep
variable {c : Cfg} {sweep : List Instr}

/-- Every command of a complete sweep is a WRS to a channel. -/
theorem completeSweep_wrs (h : completeSweep c sweep) {i : Instr} (hi : i ∈ sweep) :
    ∃ ch val, i = .wrs ch val ∧ ch.toNat < c.bandwidth := by
  obtain ⟨k, hk, hwritten⟩ := List.mem_map.mp (h.mem_iff.mp (List.mem_map_of_mem hi))
  cases i with
  | wrs ch val =>
    obtain rfl : k = ch.toNat := Option.some.inj hwritten
    exact ⟨ch, val, rfl, List.mem_range.mp hk⟩
  | rds | trk | rdp | rdf | wfu | rdw => cases hwritten

/-- A list of commands that writes a channel leaves it a sample. -/
theorem exists_sweptSample {i : Nat} {is : List Instr} (h : some i ∈ is.map writtenChannel) :
    ∃ v, sweptSample i is = some v := by
  induction is with
  | nil => cases h
  | cons j is ih =>
    cases j with
    | wrs ch val =>
      rw [sweptSample_wrs_cons]
      obtain hhead | htail := List.mem_cons.mp h
      · obtain rfl : i = ch.toNat := Option.some.inj hhead
        cases sweptSample ch.toNat is with
        | none => exact ⟨val, by simp⟩
        | some v => exact ⟨v, rfl⟩
      · obtain ⟨v, hv⟩ := ih htail
        exact ⟨v, by simp [hv]⟩
    | rds | trk | rdp | rdf | wfu | rdw => exact ih ((List.mem_cons.mp h).resolve_left nofun)

/-- The later commands win. -/
theorem sweptSample_append (i : Nat) (is js : List Instr) :
    sweptSample i (is ++ js) = (sweptSample i js).or (sweptSample i is) := by
  induction is with
  | nil => simp [sweptSample]
  | cons j is ih =>
    cases j with
    | wrs ch val => rw [List.cons_append, sweptSample_wrs_cons, sweptSample_wrs_cons, ih, Option.or_assoc]
    | rds | trk | rdp | rdf | wfu | rdw => exact ih

end Sweep

/-! #### The commands of a frame -/

section Frame
variable {c : Cfg} {is : List Instr}

theorem isFrame_wellFormed (h : isFrame c is) : ∀ i ∈ is, i.wellFormed c = true := by
  obtain ⟨sweep, reads, hsweep, hreads, horder⟩ := h
  intro i hi
  have hparts : i ∈ sweep ∨ (i = .trk ∨ i = .wfu) ∨ i ∈ reads := by
    obtain rfl | rfl := horder <;> simpa [or_assoc, or_left_comm] using hi
  obtain hi | (rfl | rfl) | hi := hparts
  · obtain ⟨ch, val, rfl, hch⟩ := completeSweep_wrs hsweep hi
    exact decide_eq_true hch
  · rfl
  · rfl
  · exact (hreads i hi).2

/-- The sweep of a frame leaves every channel a sample (R62). -/
theorem isFrame_sweptSample (h : isFrame c is) {i : Nat} (hi : i < c.bandwidth) : ∃ v, sweptSample i is = some v := by
  obtain ⟨sweep, reads, hsweep, _, horder⟩ := h
  apply exists_sweptSample
  have hwritten : some i ∈ sweep.map writtenChannel :=
    hsweep.mem_iff.mpr (List.mem_map_of_mem (List.mem_range.mpr hi))
  obtain rfl | rfl := horder <;> simp only [List.map_append, List.mem_append, hwritten, true_or]

/-- A frame is one frame of the trackers and one scan, in either order, on arrays `m'` that differ from those before it in
the samples alone: the samples it leaves (R114, R115). -/
theorem foldl_effectOf_isFrame (h : isFrame c is) (m : Memory) : ∃ m' : Memory,
    is.foldl (effectOf c) m = scanAll c (trackAll c m') ∧ m'.peak = m.peak ∧ m'.flt = m.flt ∧ m'.hist = m.hist := by
  obtain ⟨sweep, reads, hsweep, hreads, horder⟩ := h
  have hwrites : ∀ i ∈ sweep, i ≠ .trk ∧ i ≠ .wfu := fun i hi => by
    obtain ⟨ch, val, rfl, _⟩ := completeSweep_wrs hsweep hi
    exact ⟨nofun, nofun⟩
  refine ⟨sweep.foldl (effectOf c) m, ?_, foldl_effectOf_keeps hwrites⟩
  obtain rfl | rfl := horder <;>
    rw [List.foldl_append, List.foldl_append, foldl_effectOf_reads fun i hi => (hreads i hi).1]
  · rfl
  · exact (scanAll_trackAll c _).symm

end Frame

/-- Settles O43: every channel has a sample of the frame's own, and both updates read it. -/
theorem frameUsesItsOwnSweep : Obligations.FrameUsesItsOwnSweep := by
  intro s is hwf hframe hpending
  have hs := State.wf_sized hwf
  obtain ⟨hcurLength, _⟩ := (sized_iff _ _).mp hs
  obtain ⟨t, rs, ht, hdone, hmem, hresponses, hlength, hok, _⟩ :=
    runSteps_program is hs (isFrame_wellFormed hframe) hpending
  obtain ⟨m, hm, hpeak, hflt, hhist⟩ := foldl_effectOf_isFrame hframe s.mem
  have hsample {i : Nat} (hi : i < s.cfg.bandwidth) : ∃ v, sweptSample i is = some v ∧ m.cur[i]? = some v := by
    obtain ⟨v, hv⟩ := isFrame_sweptSample hframe hi
    have hcur := foldl_effectOf_cur (c := s.cfg) is (hcurLength ▸ hi)
    rw [hm, scanAll_cur, trackAll_cur, hv, Option.some_or] at hcur
    exact ⟨v, hv, hcur⟩
  refine ⟨t, ht, hdone, ⟨rs, hresponses, hlength, hok⟩, ?_⟩
  rw [hmem, hm]
  refine ⟨fun i hi => ?_, fun x hx => ?_⟩
  · obtain ⟨v, hv, hcur⟩ := hsample hi
    obtain ⟨p, hp⟩ : ∃ p, s.mem.peak[i]? = some p := memRead_of_sized hs (sp := .peak) hi
    obtain ⟨f, hf⟩ : ∃ f, s.mem.flt[i]? = some f := memRead_of_sized hs (sp := .flt) hi
    exact ⟨v, p, f, hv, hp, hf, hcur, trackAll_peak_getElem? s.cfg m i hcur (hpeak ▸ hp),
      trackAll_flt_getElem? s.cfg m i hcur (hflt ▸ hf)⟩
  · obtain ⟨v, hv, hcur⟩ := hsample (chmap_lt s.cfg hx)
    obtain ⟨w, hw⟩ := hist_getElem?_of_sized hs hx
    have hscan := scanAll_hist_getElem? s.cfg (trackAll s.cfg m) x (hhist.symm ▸ hw)
    rw [scanBit_of_cur (m := trackAll s.cfg m) hcur] at hscan
    exact ⟨v, w, hv, hw, hscan⟩

/-! #### The first frame after a reset -/

/-- What FRAME expands to is a frame of the given samples (R57, R62). -/
theorem isFrame_of_expand {c : Cfg} {vs : List Byte} {is : List Instr} (h : expand c (.frame vs) = some is) :
    isFrame c is ∧ ∀ i, sweptSample i is = vs[i]? := by
  have hlength : vs.length = c.bandwidth := (expand_frame_isSome c vs).mp (Option.isSome_of_eq_some h)
  obtain ⟨hsweep, _, hsamples, hexpand⟩ := sweepWritesEveryChannelOnce c vs _ (expand_sweep hlength)
  obtain rfl : sweepOf vs ++ [.trk, .wfu] = is := Option.some.inj (hexpand.symm.trans h)
  refine ⟨⟨sweepOf vs, [], hsweep, nofun, .inl (List.append_nil _).symm⟩, fun i => ?_⟩
  rw [sweptSample_append, hsamples]
  rfl

/-- The first bit inserted into an empty history word is the word (R81, R113). -/
theorem shiftIn_zero_thr (c : Cfg) (v : Byte) :
    shiftIn c 0#32 (thr c v) = if v.toNat < c.waterfallFloor then 1#32 else 0#32 := by
  apply BitVec.eq_of_toNat_eq
  have hfits : (thr c v).toNat < 2 ^ c.waterfallDepth :=
    (thr c v).isLt.trans_le (Nat.pow_le_pow_right Nat.two_pos (waterfallDepth_pos c))
  rw [shiftIn_toNat, BitVec.toNat_zero, Nat.mul_zero, Nat.zero_add, Nat.mod_eq_of_lt hfits, thr_toNat]
  split <;> rfl

/-- Settles O44: a frame uses its own sweep, and on levels and words that are 0 its steps leave the heights and the
threshold bits. -/
theorem firstFrameForgetsTheResetSamples : Obligations.FirstFrameForgetsTheResetSamples := by
  intro c epoch vs is hexpand
  obtain ⟨hframe, hsamples⟩ := isFrame_of_expand hexpand
  have hlength : vs.length = c.bandwidth := (expand_frame_isSome c vs).mp (Option.isSome_of_eq_some hexpand)
  obtain ⟨t, ht, _, ⟨rs, hresponses, _, hok⟩, hchannels, hcolumns⟩ :=
    frameUsesItsOwnSweep (State.afterReset c epoch (program is)) is (Memory.afterReset_wf c epoch) hframe rfl
  refine ⟨t, ht, ?_, ?_, fun i v hv => ?_, fun x hx => ?_⟩
  · simpa [goneWrong, hresponses] using hok
  · obtain ⟨t', _, ht', _, hmem, _⟩ := runSteps_program is (s := State.afterReset c epoch (program is))
      (afterReset_sized c epoch) (isFrame_wellFormed hframe) rfl
    obtain rfl : t = t' := by simpa [ht] using ht'
    obtain ⟨hcurLength, _⟩ := (sized_iff c t.mem).mp (hmem ▸ foldl_effectOf_sized is (afterReset_sized c epoch))
    apply List.ext_getElem?
    intro i
    obtain hin | hout := Nat.lt_or_ge i c.bandwidth
    · obtain ⟨v, _, _, hv, _, _, hcur, _⟩ := hchannels i hin
      rw [hcur, ← hv, hsamples]
    · rw [List.getElem?_eq_none (hcurLength.trans_le hout), List.getElem?_eq_none (hlength.trans_le hout)]
  · obtain ⟨hi, _⟩ := List.getElem?_eq_some_iff.mp hv
    obtain ⟨v', p, f, hv', hp, hf, _, hpeak, hflt⟩ := hchannels i (hlength ▸ hi)
    obtain rfl : v = v' := Option.some.inj (hv.symm.trans ((hsamples i).symm.trans hv'))
    obtain rfl : p = 0 := List.eq_of_mem_replicate (List.mem_of_getElem? hp)
    obtain rfl : f = 0 := List.eq_of_mem_replicate (List.mem_of_getElem? hf)
    rw [peakStep_of_le (Nat.zero_le _)] at hpeak
    rw [fltStep_of_le (Nat.zero_le _)] at hflt
    exact ⟨hpeak, hflt⟩
  · obtain ⟨v, w, hv, hw, hhist⟩ := hcolumns x hx
    obtain rfl : w = 0#32 := List.eq_of_mem_replicate (List.mem_of_getElem? hw)
    exact ⟨v, hsamples _ ▸ hv, (shiftIn_zero_thr c v) ▸ hhist⟩

end Sys2Proof.Machine
end
